-- ==== Sys2Proof/Word.lean ====
section
/-! DEFINITION. The one datum width of the CORE, a byte of 8 bits, unsigned (00_scope.md R4, WORD = 8). -/

namespace Sys2Proof

/-- A register, operand, immediate, memory or output byte (10_state.md R10, 20_memory.md R45). -/
abbrev Byte := BitVec 8

end Sys2Proof
end

