-- ==== Sys2Proof/Syntax.lean ====
section
/-! DEFINITION. The fourteen instructions (30_encoding.md R66), one constructor for each row of spec/opcode_table.json.
An operand is the whole operand byte, as the spec has it (R62, R65): a register operand above 7 is a legal term, and
executing it raises BoundsViolation(REG) (R69). -/

namespace Sys2Proof

/-- An instruction with the operand bytes its format names (30_encoding.md R61). -/
inductive Instr where
  /-- NOP, 42_straight_line.md R121 -/
  | nop
  /-- HLT, 40_execution_loop.md R83 -/
  | hlt
  /-- RET, 43_control_flow.md R153 -/
  | ret
  /-- PUSH reg, 42_straight_line.md R124 -/
  | push (reg : Byte)
  /-- POP reg, 42_straight_line.md R125 -/
  | pop (reg : Byte)
  /-- PRN reg, 42_straight_line.md R123 -/
  | prn (reg : Byte)
  /-- CALL reg, 43_control_flow.md R151 -/
  | call (reg : Byte)
  /-- JMP reg, 43_control_flow.md R155 -/
  | jmp (reg : Byte)
  /-- JEQ reg, 43_control_flow.md R160 -/
  | jeq (reg : Byte)
  /-- JNE reg, 43_control_flow.md R162 -/
  | jne (reg : Byte)
  /-- LDI reg imm8, 42_straight_line.md R122 -/
  | ldi (reg imm8 : Byte)
  /-- ADD reg_a reg_b, 41_alu.md R100 -/
  | add (regA regB : Byte)
  /-- MUL reg_a reg_b, 41_alu.md R102 -/
  | mul (regA regB : Byte)
  /-- CMP reg_a reg_b, 41_alu.md R104 -/
  | cmp (regA regB : Byte)
  deriving DecidableEq, Repr

/-- The fourteen opcodes by name (30_encoding.md R66). -/
inductive Opcode where
  | nop | hlt | ret | push | pop | prn | call | jmp | jeq | jne | ldi | add | mul | cmp
  deriving DecidableEq, Repr

/-- The four instruction formats (30_encoding.md R61). -/
inductive Format where
  /-- opcode alone -/
  | f0
  /-- opcode, register -/
  | f1
  /-- opcode, register, register -/
  | f2r
  /-- opcode, register, immediate -/
  | f2i
  deriving DecidableEq, Repr

end Sys2Proof
end

