-- ==== Sys2Proof/WellFormed.lean ====
section
/-! DEFINITION. The check on an instruction: every register operand names one of the eight registers (10_state.md R10,
30_encoding.md R65). An instruction that fails it still encodes and decodes (30_encoding.md R69); executing it raises
BoundsViolation(REG) (60_exceptions.md R183). So the check says which instructions can have their own effect, and the
encoding theorems do not need it (log 16). -/

namespace Sys2Proof

/-- The byte names a general register (30_encoding.md R65). -/
def regExists (reg : Byte) : Bool := reg.toNat ≤ 7

/-- Every register operand of the instruction names a general register. An immediate is never checked
(30_encoding.md R64). -/
def Instr.wellFormed : Instr → Bool
  | .nop => true
  | .hlt => true
  | .ret => true
  | .push reg => regExists reg
  | .pop reg => regExists reg
  | .prn reg => regExists reg
  | .call reg => regExists reg
  | .jmp reg => regExists reg
  | .jeq reg => regExists reg
  | .jne reg => regExists reg
  | .ldi reg _ => regExists reg
  | .add regA regB => regExists regA && regExists regB
  | .mul regA regB => regExists regA && regExists regB
  | .cmp regA regB => regExists regA && regExists regB

end Sys2Proof
end

