-- ==== Sys2Proof/Decode.lean ====
section
/-! DEFINITION. Decoding, total on any bytes and rejecting by name, and after it the encoder. The decoder looks the whole
opcode byte up (30_encoding.md R66) and uses no bit field of it (R67). -/

namespace Sys2Proof

/-- Why bytes are no instruction. -/
inductive DecodeReject where
  /-- The opcode byte is outside the map (30_encoding.md R68). Raised by `decode`; the step takes DecodeFailure for it. -/
  | illegalOpcode (op : Byte)
  /-- The byte list ends before the instruction does. Raised by `decodeBytes` alone: a step always has three bytes. -/
  | truncated
  deriving DecidableEq, Repr

/-- The opcode map of 30_encoding.md R66, read from the byte. -/
def Opcode.ofByte (op : Byte) : Option Opcode :=
  match op with
  | 0x00#8 => some .nop
  | 0x01#8 => some .hlt
  | 0x11#8 => some .ret
  | 0x45#8 => some .push
  | 0x46#8 => some .pop
  | 0x47#8 => some .prn
  | 0x50#8 => some .call
  | 0x54#8 => some .jmp
  | 0x55#8 => some .jeq
  | 0x56#8 => some .jne
  | 0x82#8 => some .ldi
  | 0xA0#8 => some .add
  | 0xA2#8 => some .mul
  | 0xA7#8 => some .cmp
  | _ => none

/-- The instruction of an opcode and the two operand bytes after it; a byte the format does not name is dropped
(30_encoding.md R61). -/
def Opcode.build (opA opB : Byte) : Opcode → Instr
  | .nop => .nop
  | .hlt => .hlt
  | .ret => .ret
  | .push => .push opA
  | .pop => .pop opA
  | .prn => .prn opA
  | .call => .call opA
  | .jmp => .jmp opA
  | .jeq => .jeq opA
  | .jne => .jne opA
  | .ldi => .ldi opA opB
  | .add => .add opA opB
  | .mul => .mul opA opB
  | .cmp => .cmp opA opB

/-- Decoding the three bytes a step fetches (40_execution_loop.md R84; HLT, which the loop tests before the dispatch
table, is one of the fourteen here). -/
def decode (op opA opB : Byte) : Except DecodeReject Instr :=
  match Opcode.ofByte op with
  | none => .error (.illegalOpcode op)
  | some o => .ok (o.build opA opB)

/-- The opcode of an instruction. -/
def Instr.opcode : Instr → Opcode
  | .nop => .nop
  | .hlt => .hlt
  | .ret => .ret
  | .push _ => .push
  | .pop _ => .pop
  | .prn _ => .prn
  | .call _ => .call
  | .jmp _ => .jmp
  | .jeq _ => .jeq
  | .jne _ => .jne
  | .ldi _ _ => .ldi
  | .add _ _ => .add
  | .mul _ _ => .mul
  | .cmp _ _ => .cmp

/-- The format column of 30_encoding.md R66. -/
def Opcode.format : Opcode → Format
  | .nop => .f0
  | .hlt => .f0
  | .ret => .f0
  | .push => .f1
  | .pop => .f1
  | .prn => .f1
  | .call => .f1
  | .jmp => .f1
  | .jeq => .f1
  | .jne => .f1
  | .ldi => .f2i
  | .add => .f2r
  | .mul => .f2r
  | .cmp => .f2r

/-- The bytes column of 30_encoding.md R61. -/
def Format.length : Format → Nat
  | .f0 => 1
  | .f1 => 2
  | .f2r => 3
  | .f2i => 3

/-- The length of an instruction, fixed by its opcode (30_encoding.md R63, R70). -/
def Instr.length (i : Instr) : Nat := i.opcode.format.length

/-- Decoding the first instruction of a byte list: the instruction and the rest of the list. -/
def decodeBytes (bytes : List Byte) : Except DecodeReject (Instr × List Byte) :=
  match bytes with
  | [] => .error .truncated
  | op :: operands =>
    match decode op (operands.getD 0 0#8) (operands.getD 1 0#8) with
    | .error e => .error e
    | .ok i => if bytes.length < i.length then .error .truncated else .ok (i, bytes.drop i.length)

/-- Byte number k of a number whose bit 0 is the least significant bit of the first byte. -/
def tableByte (nbits w k : Nat) : Byte := BitVec.ofNat 8 ((w % 2 ^ nbits) / 2 ^ (8 * k))

/-- The instruction the decoder reads from an instruction of nbits bits numbered as spec/opcode_table.json numbers
them: byte k of the instruction is bits 8k+7..8k, and the bits from nbits up are 0. -/
def decodeTableWord (nbits w : Nat) : Option Instr :=
  match decode (tableByte nbits w 0) (tableByte nbits w 1) (tableByte nbits w 2) with
  | .ok i => some i
  | .error _ => none

/-- The opcode column of 30_encoding.md R66, for the encoder. -/
def Opcode.byte : Opcode → Byte
  | .nop => 0x00#8
  | .hlt => 0x01#8
  | .ret => 0x11#8
  | .push => 0x45#8
  | .pop => 0x46#8
  | .prn => 0x47#8
  | .call => 0x50#8
  | .jmp => 0x54#8
  | .jeq => 0x55#8
  | .jne => 0x56#8
  | .ldi => 0x82#8
  | .add => 0xA0#8
  | .mul => 0xA2#8
  | .cmp => 0xA7#8

/-- The operand bytes of an instruction in the order of 30_encoding.md R60. -/
def Instr.operands : Instr → List Byte
  | .nop => []
  | .hlt => []
  | .ret => []
  | .push reg => [reg]
  | .pop reg => [reg]
  | .prn reg => [reg]
  | .call reg => [reg]
  | .jmp reg => [reg]
  | .jeq reg => [reg]
  | .jne reg => [reg]
  | .ldi reg imm8 => [reg, imm8]
  | .add regA regB => [regA, regB]
  | .mul regA regB => [regA, regB]
  | .cmp regA regB => [regA, regB]

/-- The bytes of an instruction: the opcode, then its operands (30_encoding.md R60, R61). -/
def encode (i : Instr) : List Byte := i.opcode.byte :: i.operands

end Sys2Proof
end

