-- ==== Sys2Proof/Config.lean ====
section
/-! DEFINITION. The machine's parameters (00_scope.md R4). Every one is fixed by the spec; none is open, so this file
holds no free value. WORD = 8 is `Byte`; NREG = 8 is the length of the register file in Machine/State.lean. -/

namespace Sys2Proof.Config

/-- SPREG: the general register that is the stack pointer (00_scope.md R4, 10_state.md R12). -/
abbrev spReg : Fin 8 := 7

/-- SP_RESET (00_scope.md R4, 10_state.md R14). -/
def spReset : Byte := 0xF4#8

/-- MEMSIZE: addresses 0..255 (00_scope.md R4, 20_memory.md R41). -/
@[simp] def memSize : Nat := 256

/-- PC_RESET (00_scope.md R4, 10_state.md R17). -/
@[simp] def pcReset : Nat := 0

/-- LOAD_BASE (00_scope.md R4, 70_reset_and_hazards.md R201). -/
@[simp] def loadBase : Nat := 0

/-- MAX_IMAGE (00_scope.md R4, 70_reset_and_hazards.md R202). -/
@[simp] def maxImage : Nat := 256

/-- What a memory byte nothing has written reads as: the reset contents, zero (20_memory.md R41). -/
@[simp] def memReset : Byte := 0#8

end Sys2Proof.Config
end

