-- ==== Sys2Proof/Machine/State.lean ====
section
/-! DEFINITION. The state of one CORE (10_state.md, head), its fault records, the reasons a model step can stop, and the
state right after reset (70_reset_and_hazards.md R200). -/

namespace Sys2Proof.Machine

/-- Memory as cells of strictly rising address, none equal to what an unlisted address reads as; an unlisted address
holds the reset contents, `Config.memReset` (20_memory.md R41). `Memory.wf` (Ops.lean) is the form. -/
abbrev Memory := List Host.Cell

/-- The flags register's four values (10_state.md R19). -/
inductive Flag where
  | none
  | equal
  | lessThan
  | greaterThan
  deriving DecidableEq, Repr

/-- The space of a bounds violation (60_exceptions.md R180). -/
inductive Space where
  | mem
  | reg
  deriving DecidableEq, Repr

/-- What a part of a step raises, before the pc of the step is added to make the record (60_exceptions.md R180). -/
inductive FaultCause where
  /-- BoundsViolation of an address or of a register index -/
  | boundsViolation (space : Space) (value : Int)
  /-- DecodeFailure of an opcode byte -/
  | decodeFailure (opcode : Byte)
  /-- InternalInvariantViolation: the ALU was given another operation than ADD, MUL, CMP -/
  | internalInvariantViolation
  deriving DecidableEq, Repr

/-- The machine's fault records (60_exceptions.md R180). They are machine state, inside `RunState.faulted`. -/
inductive FaultRecord where
  /-- code 1: the space, the out-of-range value, the pc of the step -/
  | boundsViolation (space : Space) (value : Int) (pc : Nat)
  /-- code 2: the opcode byte, the pc of the step -/
  | decodeFailure (opcode : Byte) (pc : Nat)
  /-- code 3: the pc of the step; no rule raises it (60_exceptions.md R185) -/
  | internalInvariantViolation (pc : Nat)
  deriving DecidableEq, Repr

/-- The run state (10_state.md R23). -/
inductive RunState where
  | running
  | halted
  | faulted (record : FaultRecord)
  deriving DecidableEq, Repr

/-- The whole state of one CORE (10_state.md, head), with the two internal latches the spec lets a model keep. -/
structure State where
  /-- general registers x[0]..x[7]; x[7] is SP (10_state.md R10, R12) -/
  regs : Vector Byte 8
  /-- program counter, no wrap (10_state.md R15) -/
  pc : Nat
  /-- instruction register (10_state.md R18) -/
  ir : Byte
  /-- flags register (10_state.md R19) -/
  fl : Flag
  /-- memory of 256 bytes (20_memory.md R41) -/
  mem : Memory
  /-- PRN output stream, oldest byte first (10_state.md R22) -/
  out : List Byte
  /-- run state (10_state.md R23) -/
  run : RunState
  /-- memory-address latch (10_state.md R25, 92_eei_decisions.md D6): no rule reads it -/
  mar : Byte
  /-- memory-data latch (10_state.md R25, 92_eei_decisions.md D6): no rule reads it -/
  mdr : Byte
  deriving DecidableEq, Repr

/-- How a run ended (00_scope.md R3, 70_reset_and_hazards.md R205): halted, or the fault record. -/
inductive RunOutcome where
  | halted
  | faulted (record : FaultRecord)
  deriving DecidableEq, Repr

/-- What the host reads of a run that has ended (70_reset_and_hazards.md R204), and no more of the state: the latches are
not here, since nothing can observe them (10_state.md R25). -/
structure FinalState where
  regs : Vector Byte 8
  pc : Nat
  ir : Byte
  fl : Flag
  mem : Memory
  out : List Byte
  outcome : RunOutcome
  deriving DecidableEq, Repr

/-- Why a model step stops with no next state. The CORE's own faults are not here: they are next states whose run state
is FAULTED (60_exceptions.md R181). -/
inductive Fault where
  /-- Raised by `step` alone, on a state whose run state is HALTED: no step is enabled there (10_state.md R23).
  DESIGN CHOICE, safe (log 1). -/
  | stepWhenHalted
  /-- Raised by `step` alone, on a state whose run state is FAULTED with this record: no step is enabled there
  (10_state.md R23). DESIGN CHOICE, safe (log 1). -/
  | stepWhenFaulted (record : FaultRecord)
  deriving DecidableEq, Repr

/-- Why the model gives no meaning. -/
inductive Refusal where
  /-- An instruction with no meaning yet, raised by `exec`'s arms alone. Safe. No arm uses it: all are modelled. -/
  | notModelled (mnemonic : String)
  /-- Raised by `load` on an image longer than 256 bytes, with the bounds violation the spec reports
  (70_reset_and_hazards.md R202). Safe. -/
  | loadRefused (space : Space) (value : Int)
  /-- Raised by the host's transactions of Session.lean taken in a phase that does not allow them
  (70_reset_and_hazards.md R204). DESIGN CHOICE, safe (log 12). -/
  | transactionOutOfTurn
  deriving DecidableEq, Repr

/-- The machine right after reset (70_reset_and_hazards.md R200). -/
def State.reset : State where
  regs := #v[0#8, 0#8, 0#8, 0#8, 0#8, 0#8, 0#8, Config.spReset]
  pc := Config.pcReset
  ir := 0#8
  fl := .none
  mem := []
  out := []
  run := .running
  mar := 0#8
  mdr := 0#8

end Sys2Proof.Machine
end

