-- ==== Sys2Proof/Machine/Ops.lean ====
section
/-! DEFINITION. The shared operations over memory and registers, the stack pointer's range, and taking a fault. -/

namespace Sys2Proof.Machine

/-! ### Memory as data -/

/-- The byte at an address: the listed byte, or the reset contents (20_memory.md R41, R51). -/
def Memory.read : Memory → Nat → Byte
  | [], _ => Config.memReset
  | (b, w) :: m, a => if b = a then w else Memory.read m a

/-- A cell put before the cells m, left out when it equals the reset contents. -/
def Memory.cons (a : Nat) (v : Byte) (m : Memory) : Memory :=
  if v = Config.memReset then m else (a, v) :: m

/-- The memory with byte v at address a and every other byte as before (20_memory.md R43, R44), in the canonical form. -/
def Memory.write : Memory → Nat → Byte → Memory
  | [], a, v => Memory.cons a v []
  | (b, w) :: m, a, v =>
    if b < a then (b, w) :: Memory.write m a v
    else if b = a then Memory.cons a v m
    else Memory.cons a v ((b, w) :: m)

/-- The canonical form of a memory whose addresses start at lo or above: strictly rising addresses below 256, no byte
equal to the reset contents. -/
def Memory.wfFrom : Nat → Memory → Bool
  | _, [] => true
  | lo, (a, v) :: m =>
    decide (lo ≤ a) && decide (a < Config.memSize) && decide (v ≠ Config.memReset) && Memory.wfFrom (a + 1) m

/-- The canonical form (20_memory.md R41 gives the address range). -/
def Memory.wf (m : Memory) : Bool := Memory.wfFrom 0 m

/-! ### Memory access of the machine -/

/-- The state with the internal latches loaded by an access (92_eei_decisions.md D6; log 3). -/
def State.latch (s : State) (addr : Int) (v : Byte) : State :=
  { s with mar := BitVec.ofInt 8 addr, mdr := v }

/-- MemRead(addr, 1) (20_memory.md R42): the byte, and the state with its latches loaded. -/
def State.readMem (s : State) (addr : Int) : Except FaultCause (Byte × State) :=
  if 0 ≤ addr ∧ addr < Config.memSize then
    .ok (s.mem.read addr.toNat, s.latch addr (s.mem.read addr.toNat))
  else .error (.boundsViolation .mem addr)

/-- MemWrite(addr, 1, v) (20_memory.md R43). -/
def State.writeMem (s : State) (addr : Int) (v : Byte) : Except FaultCause State :=
  if 0 ≤ addr ∧ addr < Config.memSize then
    .ok { s.latch addr v with mem := s.mem.write addr.toNat v }
  else .error (.boundsViolation .mem addr)

/-! ### Registers, pc, flags, output -/

/-- Read of general register r (10_state.md R10). -/
def State.reg (s : State) (r : Fin 8) : Byte := s.regs[r]

/-- Write of general register r (10_state.md R10). -/
def State.setReg (s : State) (r : Fin 8) (v : Byte) : State := { s with regs := s.regs.set r v }

/-- The stack pointer, register 7 under an alias (10_state.md R12). -/
def State.sp (s : State) : Byte := s.reg Config.spReg

/-- A write of the stack pointer writes register 7 (10_state.md R12). -/
def State.setSp (s : State) (v : Byte) : State := s.setReg Config.spReg v

/-- pc <- pc + n (10_state.md R16); no wrap (R15). -/
def State.advancePc (s : State) (n : Nat) : State := { s with pc := s.pc + n }

/-- pc <- target, a byte used unchanged (43_control_flow.md R150). -/
def State.jumpTo (s : State) (target : Byte) : State := { s with pc := target.toNat }

/-- FL <- f, the whole value (10_state.md R20). -/
def State.setFl (s : State) (f : Flag) : State := { s with fl := f }

/-- IR <- op (40_execution_loop.md R82). -/
def State.setIr (s : State) (op : Byte) : State := { s with ir := op }

/-- emit(v): one byte appended to the output stream (10_state.md R22). -/
def State.emit (s : State) (v : Byte) : State := { s with out := s.out ++ [v] }

/-- run <- HALTED (40_execution_loop.md R83). -/
def State.halt (s : State) : State := { s with run := .halted }

/-! ### The stack -/

/-- A stack-pointer value computed exactly: a byte in 0..255, otherwise BoundsViolation(MEM, value)
(20_memory.md R47, 60_exceptions.md R182). -/
def stackAddr (value : Int) : Except FaultCause Byte :=
  if 0 ≤ value ∧ value < Config.memSize then .ok (BitVec.ofInt 8 value)
  else .error (.boundsViolation .mem value)

/-- SP <- SP - 1, or the fault at -1 (20_memory.md R47). -/
def State.decSp (s : State) : Except FaultCause State := do
  let sp ← stackAddr ((s.sp.toNat : Int) - 1)
  return s.setSp sp

/-- SP <- SP + 1, or the fault at 256 (20_memory.md R47). -/
def State.incSp (s : State) : Except FaultCause State := do
  let sp ← stackAddr ((s.sp.toNat : Int) + 1)
  return s.setSp sp

/-- The second half of a push: the byte written at SP (20_memory.md R48). -/
def State.writeTop (s : State) (v : Byte) : Except FaultCause State := s.writeMem (s.sp.toNat : Int) v

/-- The first half of a pop: the byte read at SP (20_memory.md R48). -/
def State.readTop (s : State) : Except FaultCause (Byte × State) := s.readMem (s.sp.toNat : Int)

/-! ### Faults -/

/-- The record of a cause raised by a step at pc (60_exceptions.md R180). -/
def FaultCause.record (pc : Nat) : FaultCause → FaultRecord
  | .boundsViolation space value => .boundsViolation space value pc
  | .decodeFailure opcode => .decodeFailure opcode pc
  | .internalInvariantViolation => .internalInvariantViolation pc

/-- The numeric code of a record (60_exceptions.md R180, 92_eei_decisions.md D8). -/
def FaultRecord.code : FaultRecord → Nat
  | .boundsViolation _ _ _ => 1
  | .decodeFailure _ _ => 2
  | .internalInvariantViolation _ => 3

/-- The pc a record holds (60_exceptions.md R181). -/
def FaultRecord.pc : FaultRecord → Nat
  | .boundsViolation _ _ pc => pc
  | .decodeFailure _ pc => pc
  | .internalInvariantViolation pc => pc

/-- TAKING A FAULT, the one operation: the run state becomes FAULTED with the record, and the state given changes in
nothing else (60_exceptions.md R181). There is no handler and no return (R187). -/
def takeFault (c : FaultCause) (s : State) : Host.Outcome State Fault Refusal :=
  .next { s with run := .faulted (c.record s.pc) }

/-- The end of an instruction that began in s: its result, or its fault taken in s itself, so that nothing the
instruction had done so far remains (60_exceptions.md R181, faults are precise). -/
def settle (s : State) : Except FaultCause State → Host.Outcome State Fault Refusal
  | .ok t => .next t
  | .error c => takeFault c s

/-! ### Fetch -/

/-- What follows a read made in state s: a raised cause ends the fetch in s, a byte goes on in the state the read left. -/
def onRead {α : Type} (s : State) (go : Byte → State → State × Except FaultCause α) :
    Except FaultCause (Byte × State) → State × Except FaultCause α
  | .error c => (s, .error c)
  | .ok (v, t) => go v t

/-- One read of the fetch, and what follows it. -/
def State.reading {α : Type} (s : State) (addr : Int) (go : Byte → State → State × Except FaultCause α) :
    State × Except FaultCause α :=
  onRead s go (s.readMem addr)

/-- The fetch of a step: the opcode at pc, then IR, then the bytes at pc + 1 and pc + 2, each bounds-checked
(40_execution_loop.md R80, R81, R82). The state is the one the reads so far leave, whether or not one raised. -/
def fetch (s : State) : State × Except FaultCause (Byte × Byte × Byte) :=
  s.reading (s.pc : Int) fun op s1 =>
  (s1.setIr op).reading ((s.pc : Int) + 1) fun opA s2 =>
  s2.reading ((s.pc : Int) + 2) fun opB s3 =>
  (s3, .ok (op, opA, opB))

end Sys2Proof.Machine
end

