-- ==== Sys2Proof/Machine/Flags.lean ====
section
/-! DEFINITION. The flag computation of CMP, the only one (10_state.md R20), and the conditions that read FL. -/

namespace Sys2Proof.Machine

/-- CMP's flag: unsigned comparison of two register values (41_alu.md R104, R105). -/
def compareFlag (u v : Byte) : Flag :=
  if u.toNat = v.toNat then .equal else if u.toNat < v.toNat then .lessThan else .greaterThan

/-- The condition of JEQ; JNE's is its negation (43_control_flow.md R160, R162). -/
def Flag.isEqual : Flag → Bool
  | .none => false
  | .equal => true
  | .lessThan => false
  | .greaterThan => false

end Sys2Proof.Machine
end

