-- ==== Sys2Proof/Machine/Operands.lean ====
section
/-! DEFINITION. The operand forms: a register index and an immediate byte (30_encoding.md R62). -/

namespace Sys2Proof.Machine

/-- RegIdx(op): the whole byte, compared with 7, no masking (30_encoding.md R65). -/
def regIdx (op : Byte) : Except FaultCause (Fin 8) :=
  if h : op.toNat < 8 then .ok ⟨op.toNat, h⟩ else .error (.boundsViolation .reg op.toNat)

/-- The LDI immediate: the whole byte, not extended, scaled or shifted (30_encoding.md R64). -/
def imm8 (op : Byte) : Byte := op

/-- The operand byte that names register r. -/
def regByte (r : Fin 8) : Byte := BitVec.ofNat 8 r.val

end Sys2Proof.Machine
end

