-- ==== Sys2Proof/Machine/Alu.lean ====
section
/-! DEFINITION. The ALU and its instructions ADD, MUL, CMP (41_alu.md). -/

namespace Sys2Proof.Machine

/-- What the ALU gives back: a value for reg_a, or a flag for FL. -/
inductive AluResult where
  | value (v : Byte)
  | flag (f : Flag)
  deriving DecidableEq, Repr

/-- Unsigned addition modulo 256 (41_alu.md R101). -/
def aluAdd (u v : Byte) : Byte := BitVec.ofNat 8 ((u.toNat + v.toNat) % 256)

/-- Unsigned multiplication modulo 256 (41_alu.md R103). -/
def aluMul (u v : Byte) : Byte := BitVec.ofNat 8 ((u.toNat * v.toNat) % 256)

/-- The ALU as a unit: three operations, and the internal error for any other (41_alu.md R106,
60_exceptions.md R185; no meaning below asks for another, log 15). -/
def alu (o : Opcode) (u v : Byte) : Except FaultCause AluResult :=
  match o with
  | .add => .ok (.value (aluAdd u v))
  | .mul => .ok (.value (aluMul u v))
  | .cmp => .ok (.flag (compareFlag u v))
  | .nop => .error .internalInvariantViolation
  | .hlt => .error .internalInvariantViolation
  | .ret => .error .internalInvariantViolation
  | .push => .error .internalInvariantViolation
  | .pop => .error .internalInvariantViolation
  | .prn => .error .internalInvariantViolation
  | .call => .error .internalInvariantViolation
  | .jmp => .error .internalInvariantViolation
  | .jeq => .error .internalInvariantViolation
  | .jne => .error .internalInvariantViolation
  | .ldi => .error .internalInvariantViolation

/-- Where an ALU result goes: a value to reg_a, a flag to FL. -/
def State.putAlu (s : State) (a : Fin 8) : AluResult → State
  | .value v => s.setReg a v
  | .flag f => s.setFl f

/-- The shape of an F2R instruction: operand_a checked, then operand_b, both read, the result placed, pc + 3
(41_alu.md R100, R102, R104; order 60_exceptions.md R186). -/
def execAlu (o : Opcode) (regA regB : Byte) (s : State) : Host.Outcome State Fault Refusal :=
  settle s do
    let a ← regIdx regA
    let b ← regIdx regB
    let result ← alu o (s.reg a) (s.reg b)
    return (s.putAlu a result).advancePc 3

/-- ADD reg_a reg_b (41_alu.md R100). -/
def execAdd (regA regB : Byte) (s : State) : Host.Outcome State Fault Refusal := execAlu .add regA regB s

/-- MUL reg_a reg_b (41_alu.md R102). -/
def execMul (regA regB : Byte) (s : State) : Host.Outcome State Fault Refusal := execAlu .mul regA regB s

/-- CMP reg_a reg_b (41_alu.md R104). -/
def execCmp (regA regB : Byte) (s : State) : Host.Outcome State Fault Refusal := execAlu .cmp regA regB s

end Sys2Proof.Machine
end

