-- ==== Sys2Proof/Machine/ControlFlow.lean ====
section
/-! DEFINITION. The control-flow instructions CALL, RET, JMP, JEQ, JNE (43_control_flow.md) and HLT
(40_execution_loop.md R83). -/

namespace Sys2Proof.Machine

/-- HLT (40_execution_loop.md R83): the pc stays at the HLT. -/
def execHlt (s : State) : Host.Outcome State Fault Refusal := settle s (.ok s.halt)

/-- The return address of a CALL as a byte; it fits, since a CALL that executes has pc <= 253
(43_control_flow.md R152; log 5). -/
def State.returnAddr (s : State) : Byte := BitVec.ofNat 8 (s.pc + 2)

/-- CALL reg (43_control_flow.md R151): the register is read after the push, so CALL R7 jumps to the new SP. -/
def execCall (reg : Byte) (s : State) : Host.Outcome State Fault Refusal :=
  settle s do
    let r ← regIdx reg
    let s1 ← s.decSp
    let s2 ← s1.writeTop s.returnAddr
    return s2.jumpTo (s2.reg r)

/-- RET (43_control_flow.md R153). -/
def execRet (s : State) : Host.Outcome State Fault Refusal :=
  settle s do
    let (t, s1) ← s.readTop
    let s2 ← s1.incSp
    return s2.jumpTo t

/-- A register jump taken or not: the operand is checked either way (43_control_flow.md R156). -/
def execJumpIf (taken : Bool) (reg : Byte) (s : State) : Host.Outcome State Fault Refusal :=
  settle s do
    let r ← regIdx reg
    return if taken then s.jumpTo (s.reg r) else s.advancePc 2

/-- JMP reg (43_control_flow.md R155). -/
def execJmp (reg : Byte) (s : State) : Host.Outcome State Fault Refusal := execJumpIf true reg s

/-- JEQ reg (43_control_flow.md R160). -/
def execJeq (reg : Byte) (s : State) : Host.Outcome State Fault Refusal := execJumpIf s.fl.isEqual reg s

/-- JNE reg (43_control_flow.md R162). -/
def execJne (reg : Byte) (s : State) : Host.Outcome State Fault Refusal := execJumpIf (!s.fl.isEqual) reg s

end Sys2Proof.Machine
end

