-- ==== Sys2Proof/Machine/StraightLine.lean ====
section
/-! DEFINITION. The straight-line instructions NOP, LDI, PRN, PUSH, POP (42_straight_line.md). Each advances the pc by its
own length (R120). -/

namespace Sys2Proof.Machine

/-- NOP (42_straight_line.md R121). -/
def execNop (s : State) : Host.Outcome State Fault Refusal := settle s (.ok (s.advancePc 1))

/-- LDI reg imm8 (42_straight_line.md R122). -/
def execLdi (reg imm : Byte) (s : State) : Host.Outcome State Fault Refusal :=
  settle s do
    let r ← regIdx reg
    return (s.setReg r (imm8 imm)).advancePc 3

/-- PRN reg (42_straight_line.md R123). -/
def execPrn (reg : Byte) (s : State) : Host.Outcome State Fault Refusal :=
  settle s do
    let r ← regIdx reg
    return (s.emit (s.reg r)).advancePc 2

/-- PUSH reg (42_straight_line.md R124): the register is read after SP is decremented, so PUSH R7 stores the new SP. -/
def execPush (reg : Byte) (s : State) : Host.Outcome State Fault Refusal :=
  settle s do
    let r ← regIdx reg
    let s1 ← s.decSp
    let s2 ← s1.writeTop (s1.reg r)
    return s2.advancePc 2

/-- POP reg (42_straight_line.md R125): the register is written before SP is incremented, so POP R7 leaves the popped
byte plus 1 in SP. POP R7 right after PUSH R7 therefore restores SP, by the pseudocode of R124 and R125; the last sentence of
R126 denies it and is set aside (DEDUCED, log 19). -/
def execPop (reg : Byte) (s : State) : Host.Outcome State Fault Refusal :=
  settle s do
    let r ← regIdx reg
    let (v, s1) ← s.readTop
    let s2 ← (s1.setReg r v).incSp
    return s2.advancePc 2

end Sys2Proof.Machine
end

