-- ==== Sys2Proof/Machine/Dispatch.lean ====
section
/-! DEFINITION. The dispatch of an instruction to its meaning (40_execution_loop.md R84, R85). -/

namespace Sys2Proof.Machine

def exec (i : Instr) (s : State) : Host.Outcome State Fault Refusal :=
  match i with
  | .nop => Sys2Proof.Machine.execNop s
  | .hlt => Sys2Proof.Machine.execHlt s
  | .ret => Sys2Proof.Machine.execRet s
  | .push reg => Sys2Proof.Machine.execPush reg s
  | .pop reg => Sys2Proof.Machine.execPop reg s
  | .prn reg => Sys2Proof.Machine.execPrn reg s
  | .call reg => Sys2Proof.Machine.execCall reg s
  | .jmp reg => Sys2Proof.Machine.execJmp reg s
  | .jeq reg => Sys2Proof.Machine.execJeq reg s
  | .jne reg => Sys2Proof.Machine.execJne reg s
  | .ldi reg imm => Sys2Proof.Machine.execLdi reg imm s
  | .add regA regB => Sys2Proof.Machine.execAdd regA regB s
  | .mul regA regB => Sys2Proof.Machine.execMul regA regB s
  | .cmp regA regB => Sys2Proof.Machine.execCmp regA regB s

end Sys2Proof.Machine
end

