-- ==== Sys2Proof/Machine/Cycle.lean ====
section
/-! DEFINITION. One pass of the fetch-decode-execute loop (40_execution_loop.md R80), and the bytes of an instruction laid
where it fetches. -/

namespace Sys2Proof.Machine

/-- Decode and execute three fetched bytes (40_execution_loop.md R84, R85). An opcode outside the map takes DecodeFailure
(30_encoding.md R68). -/
def decodeExecute (op opA opB : Byte) (s : State) : Host.Outcome State Fault Refusal :=
  match decode op opA opB with
  | .error _ => takeFault (.decodeFailure op) s
  | .ok i => exec i s

/-- What follows a fetch. A fault of the fetch is taken in the state the fetch left, so that IR keeps an opcode that was
fetched (40_execution_loop.md R82). -/
def afterFetch : State × Except FaultCause (Byte × Byte × Byte) → Host.Outcome State Fault Refusal
  | (s1, .error c) => takeFault c s1
  | (s1, .ok (op, opA, opB)) => decodeExecute op opA opB s1

/-- A step of a RUNNING core: fetch, then decode and execute (40_execution_loop.md R80). -/
def runCycle (s : State) : Host.Outcome State Fault Refusal := afterFetch (fetch s)

/-- A step, which only RUNNING enables (10_state.md R23, 40_execution_loop.md R80). -/
def cycle (s : State) : Host.Outcome State Fault Refusal :=
  match s.run with
  | .running => runCycle s
  | .halted => .fault .stepWhenHalted
  | .faulted record => .fault (.stepWhenFaulted record)

/-- Bytes written at rising addresses from a; a byte past 255 is dropped. -/
def Memory.writeList (m : Memory) (a : Nat) : List Byte → Memory
  | [] => m
  | v :: vs => Memory.writeList (if a < Config.memSize then m.write a v else m) (a + 1) vs

/-- The three bytes a step fetches, for an instruction of nbits bits numbered as spec/opcode_table.json numbers them. -/
def State.layWord (s : State) (nbits w : Nat) : State :=
  { s with mem := s.mem.writeList s.pc [tableByte nbits w 0, tableByte nbits w 1, tableByte nbits w 2] }

end Sys2Proof.Machine
end

