-- ==== Sys2Proof/Machine/Step.lean ====
section
/-! DEFINITION. The step, and an instruction word placed where the step fetches. -/

namespace Sys2Proof.Machine

/-- One step of the CORE (40_execution_loop.md R80). -/
def step (s : State) : Host.Outcome State Fault Refusal := cycle s

/-- s with an instruction word at the pc, its bits from nbits up zero (log 13). -/
def State.withFetchWord (s : State) (nbits w : Nat) : State := s.layWord nbits w

end Sys2Proof.Machine
end

