-- ==== Sys2Proof/Machine/Launch.lean ====
section
/-! DEFINITION. Program load (70_reset_and_hazards.md R201, R202) and the reading of the final state (R204). -/

namespace Sys2Proof.Machine

/-- load(image): byte k of the image at address k, no register changed, an image of more than 256 bytes refused with
BoundsViolation(MEM, 256) and nothing written (70_reset_and_hazards.md R201, R202). A load is a host transaction
and no access of the CORE, so the latches stay. -/
def load (image : List Byte) (s : State) : Host.Outcome State Fault Refusal :=
  if image.length ≤ Config.maxImage then .next { s with mem := s.mem.writeList Config.loadBase image }
  else .refused (.loadRefused .mem Config.maxImage)

/-- How the run ended, if it has (70_reset_and_hazards.md R205). -/
def RunState.outcome : RunState → Option RunOutcome
  | .running => none
  | .halted => some .halted
  | .faulted record => some (.faulted record)

/-- What the host may read, once the run has ended: registers, pc, IR, FL, memory, output and the run outcome with its
fault record, and nothing else (00_scope.md R3, 70_reset_and_hazards.md R204). -/
def State.final (s : State) : Option FinalState :=
  s.run.outcome.map fun o =>
    { regs := s.regs, pc := s.pc, ir := s.ir, fl := s.fl, mem := s.mem, out := s.out, outcome := o }

end Sys2Proof.Machine
end

