-- ==== Sys2Proof/Machine/Session.lean ====
section
/-! DEFINITION. The host's transactions with one CORE in the order the spec allows (70_reset_and_hazards.md R204): reset,
one load, start, steps, and the reading of the final state. The phase is the protocol's, not the CORE's state. -/

namespace Sys2Proof.Machine

/-- Where a host is in its dealings with a CORE (70_reset_and_hazards.md R204). -/
inductive Phase where
  | afterReset
  | loaded
  | started
  deriving DecidableEq, Repr

/-- A CORE and the phase its host is in. -/
structure Session where
  phase : Phase
  core : State
  deriving DecidableEq, Repr

/-- The reset transaction, a fresh machine (70_reset_and_hazards.md R200); no reset comes during a run. -/
def Session.new : Session := ⟨.afterReset, .reset⟩

/-- An outcome of the core seen as one of the session in phase p. -/
def Session.lift (p : Phase) : Host.Outcome State Fault Refusal → Host.Outcome Session Fault Refusal
  | .next s => .next ⟨p, s⟩
  | .fault r => .fault r
  | .refused r => .refused r

/-- The load transaction: once, after reset and before the run (70_reset_and_hazards.md R201, R204). -/
def Session.load (image : List Byte) (h : Session) : Host.Outcome Session Fault Refusal :=
  match h.phase with
  | .afterReset => Session.lift .loaded (Sys2Proof.Machine.load image h.core)
  | .loaded => .refused .transactionOutOfTurn
  | .started => .refused .transactionOutOfTurn

/-- The start transaction, after the load (70_reset_and_hazards.md R204). -/
def Session.start (h : Session) : Host.Outcome Session Fault Refusal :=
  match h.phase with
  | .afterReset => .refused .transactionOutOfTurn
  | .loaded => .next ⟨.started, h.core⟩
  | .started => .refused .transactionOutOfTurn

/-- A step of the CORE, which it takes once started (70_reset_and_hazards.md R204). -/
def Session.step (h : Session) : Host.Outcome Session Fault Refusal :=
  match h.phase with
  | .afterReset => .refused .transactionOutOfTurn
  | .loaded => .refused .transactionOutOfTurn
  | .started => Session.lift .started (Sys2Proof.Machine.step h.core)

/-- The output bytes the host has received, in execution order (10_state.md R22, 70_reset_and_hazards.md R204). -/
def Session.received (h : Session) : List Byte := h.core.out

/-- The final state, readable in a started session whose run has ended (70_reset_and_hazards.md R204). -/
def Session.readFinal (h : Session) : Option FinalState :=
  match h.phase with
  | .afterReset => none
  | .loaded => none
  | .started => h.core.final

end Sys2Proof.Machine
end

