-- ==== Sys2Proof/Safety.lean ====
section
/-! DEFINITION. The terms the statements use: agreement on the state tuple a claim may observe, the fault records a run
can reach, and the invariant every step keeps. -/

namespace Sys2Proof.Machine

/-- The outcome IS A NEXT STATE, and that state is t in the whole state tuple of 10_state.md: registers, pc, IR, FL,
memory, output, run state. Only the two internal latches are left open, since no claim may observe them
(10_state.md R25). -/
def Yields (o : Host.Outcome State Fault Refusal) (t : State) : Prop :=
  ∃ mar mdr : Byte, o = .next { t with mar := mar, mdr := mdr }

/-- The state after fault record r is taken in s: s, but for the run state (60_exceptions.md R181). -/
def State.faultedWith (s : State) (r : FaultRecord) : State := { s with run := .faulted r }

/-- The opcode byte is one of the fourteen of 30_encoding.md R66, written out. -/
def isMappedOpcode (op : Byte) : Bool :=
  op ∈ [0x00#8, 0x01#8, 0x11#8, 0x45#8, 0x46#8, 0x47#8, 0x50#8, 0x54#8, 0x55#8, 0x56#8, 0x82#8, 0xA0#8, 0xA2#8, 0xA7#8]

/-- The records of 60_exceptions.md R182, R183, R184: addresses -1 and 256, register indexes 8..255, opcodes outside
the map; never an internal invariant violation (R185). -/
def FaultRecord.reachable : FaultRecord → Bool
  | .boundsViolation .mem value _ => value == -1 || value == 256
  | .boundsViolation .reg value _ => decide (8 ≤ value) && decide (value ≤ 255)
  | .decodeFailure opcode _ => !isMappedOpcode opcode
  | .internalInvariantViolation _ => false

/-- What every step keeps: memory in its canonical form within 0..255, pc in 0..256 (10_state.md R15), and a FAULTED
run state whose record is a reachable one and holds the pc of the state (60_exceptions.md R181, R182). -/
def State.Inv (s : State) : Prop :=
  s.mem.wf = true ∧ s.pc ≤ 256 ∧ ∀ r, s.run = .faulted r → r.reachable = true ∧ r.pc = s.pc

end Sys2Proof.Machine
end

