-- ==== Sys2Proof/Certificates/Slice0/Obligations.lean ====
section
/-! DEFINITION. The statements about the CORE. `regByte r` is the operand byte naming register r, so a statement over all
r : Fin 8 is one over every register operand that exists; the bytes above 7 have a statement of their own,
`RegisterOperandAboveSevenFaults`. `Yields o t` says that o IS a next state and that the state is t but for the two
internal latches no claim may observe (10_state.md R25), so `Yields o (s with some fields changed)` says the result and the
frame at once. A statement that rests on a decision the spec marks as its own (92_eei_decisions.md D1..D22) names it. -/

open Sys2Proof Sys2Proof.Machine

/-! ### Reset and the invariant -/

/-- 70_reset_and_hazards.md R200, 10_state.md R14, R17: every piece of state at reset. -/
def Obligations.ResetHoldsTheSpecsValues : Prop :=
  (∀ r : Fin 8, State.reset.reg r = if r = 7 then 0xF4#8 else 0x00#8) ∧
  State.reset.pc = 0 ∧ State.reset.ir = 0x00#8 ∧ State.reset.fl = .none ∧
  (∀ a : Nat, a ≤ 255 → State.reset.mem.read a = 0x00#8) ∧
  State.reset.out = [] ∧ State.reset.run = .running ∧ State.reset.mar = 0x00#8 ∧ State.reset.mdr = 0x00#8

/-- The invariant of Safety.lean holds at reset. -/
def Obligations.ResetMeetsTheInvariant : Prop := State.reset.Inv

/-- Every step from every state that meets the invariant keeps it: memory canonical within 0..255 (20_memory.md R41), pc
in 0..256 (10_state.md R15, 92 D5), and a FAULTED record that is one of 60_exceptions.md R182 to R184 and holds the pc
(R181, 92 D2 and D8). -/
def Obligations.EveryStepKeepsTheInvariant : Prop :=
  ∀ s t : State, s.Inv → step s = .next t → t.Inv

/-! ### Encoding -/

/-- Decoding the encoding of any instruction, with any bytes after it, gives the instruction and those bytes back; the
operands are at every value a byte has, register operands above 7 too (30_encoding.md R61, R69). The step's own
three-byte decode gives it too, whatever the bytes that follow. -/
def Obligations.DecodingAnEncodingGivesTheInstruction : Prop :=
  ∀ (i : Instr) (rest : List Byte),
    decodeBytes (encode i ++ rest) = .ok (i, rest) ∧
    decode ((encode i ++ rest).getD 0 0#8) ((encode i ++ rest).getD 1 0#8) ((encode i ++ rest).getD 2 0#8) = .ok i

/-- The other direction: bytes that decode are the encoding of what they decode to. -/
def Obligations.DecodedBytesAreTheEncoding : Prop :=
  ∀ (bytes : List Byte) (i : Instr) (rest : List Byte),
    decodeBytes bytes = .ok (i, rest) → bytes = encode i ++ rest

/-- 30_encoding.md R66: the opcode byte selects the instruction by its whole value, by this map and no other byte. -/
def Obligations.OpcodeByteSelectsTheInstruction : Prop :=
  ∀ op opA opB : Byte,
    decode 0x00#8 opA opB = .ok .nop ∧
    decode 0x01#8 opA opB = .ok .hlt ∧
    decode 0x11#8 opA opB = .ok .ret ∧
    decode 0x45#8 opA opB = .ok (.push opA) ∧
    decode 0x46#8 opA opB = .ok (.pop opA) ∧
    decode 0x47#8 opA opB = .ok (.prn opA) ∧
    decode 0x50#8 opA opB = .ok (.call opA) ∧
    decode 0x54#8 opA opB = .ok (.jmp opA) ∧
    decode 0x55#8 opA opB = .ok (.jeq opA) ∧
    decode 0x56#8 opA opB = .ok (.jne opA) ∧
    decode 0x82#8 opA opB = .ok (.ldi opA opB) ∧
    decode 0xA0#8 opA opB = .ok (.add opA opB) ∧
    decode 0xA2#8 opA opB = .ok (.mul opA opB) ∧
    decode 0xA7#8 opA opB = .ok (.cmp opA opB) ∧
    (isMappedOpcode op = false → decode op opA opB = .error (.illegalOpcode op))

/-- The property of the map that 30_encoding.md section 3 notes: bits 7..6 of the opcode count the operand bytes, bit 5
marks the ALU instructions, bit 4 the instructions that write the pc other than by advancing it. -/
def Obligations.OpcodeBitsFollowTheMap : Prop :=
  ∀ i : Instr,
    (encode i).length = 1 + (i.opcode.byte.extractLsb' 6 2).toNat ∧
    (i.opcode.byte.getLsbD 5 = true ↔ ∃ a b, i = .add a b ∨ i = .mul a b ∨ i = .cmp a b) ∧
    (i.opcode.byte.getLsbD 4 = true ↔
      i = .ret ∨ ∃ r, i = .call r ∨ i = .jmp r ∨ i = .jeq r ∨ i = .jne r)

/-- 30_encoding.md R63: the length of each instruction, which is what it advances the pc by when it falls through; CALL's
return address is pc + 2. -/
def Obligations.LengthIsTheFallThroughAdvance : Prop :=
  (∀ i : Instr, (encode i).length = match i with
    | .nop => 1 | .hlt => 1 | .ret => 1
    | .prn _ => 2 | .push _ => 2 | .pop _ => 2 | .call _ => 2 | .jmp _ => 2 | .jeq _ => 2 | .jne _ => 2
    | .ldi _ _ => 3 | .add _ _ => 3 | .mul _ _ => 3 | .cmp _ _ => 3) ∧
  (∀ (i : Instr) (s t : State), exec i s = .next t → t.run = .running →
    (match i with
      | .nop => True | .prn _ => True | .push _ => True | .pop _ => True
      | .jeq _ => s.fl ≠ .equal | .jne _ => s.fl = .equal
      | .ldi _ _ => True | .add _ _ => True | .mul _ _ => True | .cmp _ _ => True
      | .hlt => False | .ret => False | .call _ => False | .jmp _ => False) →
    t.pc = s.pc + (encode i).length) ∧
  (∀ (reg : Byte) (s t : State), s.mem.wf = true → s.pc ≤ 253 → exec (.call reg) s = .next t → t.run = .running →
    (t.mem.read t.sp.toNat).toNat = s.pc + 2)

/-- A sanity check of decoding on words written out bit by bit from 30_encoding.md R61 and R66. -/
def Obligations.WrittenOutWordsDecode : Prop :=
  decode 0b10000010#8 0b00000000#8 0b00001000#8 = .ok (.ldi 0#8 8#8) ∧
  decode 0b10100111#8 0b00000001#8 0b00000010#8 = .ok (.cmp 1#8 2#8) ∧
  decode 0b01000101#8 0b00000111#8 0b11111111#8 = .ok (.push 7#8) ∧
  decode 0b01010110#8 0b00000011#8 0b00000000#8 = .ok (.jne 3#8) ∧
  decodeTableWord 8 0b00010001 = some .ret ∧
  decodeTableWord 24 0b00000001_00000000_10100000 = some (.add 0#8 1#8)

/-! ### The step -/

/-- A step runs the decoded instruction: in RUNNING, with the three bytes at pc, pc + 1, pc + 2 inside memory and
decoding to i, step is exec of i in the same state with IR holding the opcode (40_execution_loop.md R80, R82, R85).
Nothing is added around exec: the instruction writes the pc itself. -/
def Obligations.StepRunsTheDecodedInstruction : Prop :=
  ∀ (s : State) (i : Instr), s.run = .running → s.pc ≤ 253 →
    decode (s.mem.read s.pc) (s.mem.read (s.pc + 1)) (s.mem.read (s.pc + 2)) = .ok i →
    ∃ mar mdr : Byte, step s = exec i { s with ir := s.mem.read s.pc, mar := mar, mdr := mdr }

/-- The strict fetch (the spec's own decision D1): at pc 254 and 255 an operand fetch raises BoundsViolation(MEM, 256)
whatever the opcode, with IR written; from 256 the opcode fetch raises at the pc, IR unchanged (D2). -/
def Obligations.FetchPastTheTopFaults : Prop :=
  ∀ s : State, s.run = .running →
    (s.pc = 254 ∨ s.pc = 255 → Yields (step s)
      { s with ir := s.mem.read s.pc, run := .faulted (.boundsViolation .mem 256 s.pc) }) ∧
    (256 ≤ s.pc → Yields (step s) { s with run := .faulted (.boundsViolation .mem s.pc s.pc) })

/-- An opcode outside the map takes DecodeFailure(opcode, pc) and nothing else but the IR write happens
(30_encoding.md section 4, 60_exceptions.md section 2; FAULTED and precise by the spec's decisions D2 and D8). -/
def Obligations.UnmappedOpcodeTakesDecodeFailure : Prop :=
  ∀ s : State, s.run = .running → s.pc ≤ 253 → isMappedOpcode (s.mem.read s.pc) = false →
    Yields (step s)
      { s with ir := s.mem.read s.pc, run := .faulted (.decodeFailure (s.mem.read s.pc) s.pc) }

/-- A step is enabled exactly in RUNNING (10_state.md section 6, 40_execution_loop.md section 1). The two fault outcomes
that answer in HALTED and FAULTED are the model's choice (log 1). -/
def Obligations.StepIsEnabledExactlyInRunning : Prop :=
  ∀ s : State, ((∃ t, step s = .next t) ↔ s.run = .running) ∧
    (s.run = .halted → step s = .fault .stepWhenHalted) ∧
    (∀ r, s.run = .faulted r → step s = .fault (.stepWhenFaulted r))

/-- No instruction stops the model: every instruction, with every operand, in every state, answers a next state, which may
be FAULTED. That a fault is a next state with the run state FAULTED rests on the spec's own decisions D2 and D8
(60_exceptions.md section 1, log 2). When an instruction completes is said by the statements of its result. -/
def Obligations.EveryInstructionAnswersANextState : Prop :=
  ∀ (i : Instr) (s : State), ∃ t, exec i s = .next t

/-- 10_state.md R18: IR is 0 at reset, holds the opcode byte of the step just taken, and no instruction reads it: a step
from the same state with another IR does the same to everything else. -/
def Obligations.IrHoldsTheOpcodeAndIsNeverRead : Prop :=
  State.reset.ir = 0x00#8 ∧
  ∀ s t : State, step s = .next t →
    (s.pc ≤ 255 → t.ir = s.mem.read s.pc) ∧
    ∀ x : Byte, ∃ y : Byte, Yields (step { s with ir := x }) { t with ir := y }

/-- The internal latches decide nothing: a step from the same state with other latch contents gives the same state tuple
(10_state.md section 7, 92_eei_decisions.md D6). -/
def Obligations.LatchesAreNeverRead : Prop :=
  ∀ (s t : State) (mar mdr : Byte), step s = .next t → Yields (step { s with mar := mar, mdr := mdr }) t

/-! ### ALU -/

/-- 41_alu.md R101: ADD is unsigned addition modulo 256 into reg_a alone, with no flag, for every pair of registers. -/
def Obligations.AddIsAdditionModulo256 : Prop :=
  ∀ (a b : Fin 8) (s : State), Yields (exec (.add (regByte a) (regByte b)) s)
    { s with regs := s.regs.set a (s.reg a + s.reg b), pc := s.pc + 3 }

/-- 41_alu.md R103: MUL leaves the low 8 bits of the 16-bit product in reg_a alone, with no flag, for every pair of
registers. -/
def Obligations.MulIsTheLowByteOfTheProduct : Prop :=
  ∀ (a b : Fin 8) (s : State), Yields (exec (.mul (regByte a) (regByte b)) s)
    { s with
      regs := s.regs.set a (((s.reg a).setWidth 16 * (s.reg b).setWidth 16).setWidth 8), pc := s.pc + 3 }

/-- 41_alu.md R105: after CMP, FL is EQUAL, LESS_THAN or GREATER_THAN exactly by the unsigned order of the register
values; no register or memory byte changes. -/
def Obligations.CmpSetsFlByTheUnsignedOrder : Prop :=
  ∀ (a b : Fin 8) (s : State), ∃ f : Flag,
    Yields (exec (.cmp (regByte a) (regByte b)) s) { s with fl := f, pc := s.pc + 3 } ∧
    (f = .equal ↔ (s.reg a).toNat = (s.reg b).toNat) ∧
    (f = .lessThan ↔ (s.reg a).toNat < (s.reg b).toNat) ∧
    (f = .greaterThan ↔ (s.reg b).toNat < (s.reg a).toNat)

/-- 10_state.md R20: only CMP writes FL, and replaces it wholly, whatever it was; only JEQ and JNE read it. -/
def Obligations.OnlyCmpWritesFlAndOnlyJumpsReadIt : Prop :=
  (∀ (i : Instr) (s t : State), (∀ a b, i ≠ .cmp a b) → exec i s = .next t → t.fl = s.fl) ∧
  (∀ (a b : Fin 8) (s : State) (f : Flag),
    exec (.cmp (regByte a) (regByte b)) { s with fl := f } = exec (.cmp (regByte a) (regByte b)) s) ∧
  (∀ (i : Instr) (s t : State) (f : Flag), (∀ r, i ≠ .jeq r ∧ i ≠ .jne r) → exec i s = .next t →
    ∃ g : Flag, Yields (exec i { s with fl := f }) { t with fl := g })

/-! ### Straight line -/

/-- 42_straight_line.md R121: NOP advances the pc by 1 and changes nothing else, IR apart, whatever its two fetched
operand bytes are. -/
def Obligations.NopOnlyAdvancesThePc : Prop :=
  (∀ s : State, Yields (exec .nop s) { s with pc := s.pc + 1 }) ∧
  (∀ s : State, s.run = .running → s.pc ≤ 253 → s.mem.read s.pc = 0x00#8 →
    Yields (step s) { s with ir := 0x00#8, pc := s.pc + 1 })

/-- HLT sets HALTED and changes nothing else, the pc neither (40_execution_loop.md section 2); as a step it writes IR. -/
def Obligations.HltHaltsAtItsOwnAddress : Prop :=
  (∀ s : State, Yields (exec .hlt s) { s with run := .halted }) ∧
  (∀ s : State, s.run = .running → s.pc ≤ 253 → s.mem.read s.pc = 0x01#8 →
    Yields (step s) { s with ir := 0x01#8, run := .halted })

/-- 30_encoding.md R64: LDI's immediate is the whole byte at pc + 2, received unchanged. -/
def Obligations.LdiLoadsTheByteAtPcPlus2 : Prop :=
  (∀ (r : Fin 8) (v : Byte) (s : State), Yields (exec (.ldi (regByte r) v) s)
    { s with regs := s.regs.set r v, pc := s.pc + 3 }) ∧
  (∀ (r : Fin 8) (s : State), s.run = .running → s.pc ≤ 253 → s.mem.read s.pc = 0x82#8 →
    s.mem.read (s.pc + 1) = regByte r →
    Yields (step s)
      { s with ir := 0x82#8, regs := s.regs.set r (s.mem.read (s.pc + 2)), pc := s.pc + 3 })

/-- PRN appends the register's value to the output and changes nothing else, SP's value for R7
(42_straight_line.md section 3; the byte stream is the spec's decision D9). -/
def Obligations.PrnEmitsTheRegister : Prop :=
  ∀ (r : Fin 8) (s : State), Yields (exec (.prn (regByte r)) s)
    { s with out := s.out ++ [s.reg r], pc := s.pc + 2 }

/-- Nothing but a PRN of a register that exists writes the output, it appends that one byte, and nothing is ever removed
(10_state.md section 5, decision D9). -/
def Obligations.OutputGrowsOnlyByPrn : Prop :=
  ∀ s t : State, step s = .next t →
    (t.out = s.out ∧ ¬ (s.pc ≤ 253 ∧ s.mem.read s.pc = 0x47#8 ∧ (s.mem.read (s.pc + 1)).toNat ≤ 7)) ∨
    (s.pc ≤ 253 ∧ s.mem.read s.pc = 0x47#8 ∧
      ∃ r : Fin 8, s.mem.read (s.pc + 1) = regByte r ∧ t.out = s.out ++ [s.reg r])

/-- PUSH with SP not 0: SP falls by 1 and the register, read after that, is stored at the new SP; PUSH R7 so stores SP - 1
(42_straight_line.md section 4; the R7 case is the spec's decision D19). Every other byte of memory, every other
register, FL and the rest stay. -/
def Obligations.PushStoresBelowTheOldStackPointer : Prop :=
  ∀ (r : Fin 8) (s : State), s.mem.wf = true → s.sp ≠ 0x00#8 → ∃ m : Memory,
    Yields (exec (.push (regByte r)) s) { s with regs := s.regs.set 7 (s.sp - 1#8), mem := m, pc := s.pc + 2 } ∧
    ∀ a : Nat, m.read a =
      if a = (s.sp - 1#8).toNat then (if r = 7 then s.sp - 1#8 else s.reg r) else s.mem.read a

/-- POP: the byte at SP goes to the register and then SP grows by 1, so POP R7 leaves SP at the popped byte plus 1; memory
and all else stay (42_straight_line.md section 5; the R7 case is decision D19). It completes unless the new SP would be
256 (decision D4, `StackPointerLeavingTheRangeFaults`); that POP R7 completes at SP = 255 too, when the byte is below 255,
is read from the pseudocode (DEDUCED, log 7). -/
def Obligations.PopLoadsTheTopOfTheStack : Prop :=
  (∀ (r : Fin 8) (s : State), r ≠ 7 → s.sp ≠ 0xFF#8 →
    Yields (exec (.pop (regByte r)) s)
      { s with regs := (s.regs.set r (s.mem.read s.sp.toNat)).set 7 (s.sp + 1#8), pc := s.pc + 2 }) ∧
  (∀ s : State, s.mem.read s.sp.toNat ≠ 0xFF#8 →
    Yields (exec (.pop (regByte 7)) s)
      { s with regs := s.regs.set 7 (s.mem.read s.sp.toNat + 1#8), pc := s.pc + 2 })

/-! ### Control flow -/

/-- CALL with SP not 0: SP falls by 1, the return address pc + 2 is stored at the new SP, and the pc becomes the register
read after that, so CALL R7 jumps to SP - 1 (43_control_flow.md section 1; the R7 case is decision D19). pc ≤ 253 is
where a CALL that executes stands (40_execution_loop.md section 1). All else stays. -/
def Obligations.CallPushesTheReturnAddressAndJumps : Prop :=
  ∀ (r : Fin 8) (s : State), s.mem.wf = true → s.pc ≤ 253 → s.sp ≠ 0x00#8 → ∃ m : Memory,
    Yields (exec (.call (regByte r)) s)
      { s with
        regs := s.regs.set 7 (s.sp - 1#8), mem := m,
        pc := (if r = 7 then s.sp - 1#8 else s.reg r).toNat } ∧
    (m.read (s.sp - 1#8).toNat).toNat = s.pc + 2 ∧
    ∀ a : Nat, a ≠ (s.sp - 1#8).toNat → m.read a = s.mem.read a

/-- RET: the pc becomes the byte at SP, and SP grows by 1; all else stays (43_control_flow.md section 2). It completes
unless SP is 255 (decision D4). -/
def Obligations.RetPopsThePc : Prop :=
  ∀ s : State, s.sp ≠ 0xFF#8 → Yields (exec .ret s)
    { s with regs := s.regs.set 7 (s.sp + 1#8), pc := (s.mem.read s.sp.toNat).toNat }

/-- JMP always, JEQ when FL is EQUAL, JNE when FL is LESS_THAN, GREATER_THAN or NONE, set the pc to the register;
otherwise JEQ and JNE advance it by 2; nothing else changes (43_control_flow.md sections 3 and 4; FL's four values are
decision D7). -/
def Obligations.RegisterJumpsFollowFl : Prop :=
  ∀ (r : Fin 8) (s : State),
    Yields (exec (.jmp (regByte r)) s) { s with pc := (s.reg r).toNat } ∧
    (s.fl = .equal → Yields (exec (.jeq (regByte r)) s) { s with pc := (s.reg r).toNat }) ∧
    (s.fl ≠ .equal → Yields (exec (.jeq (regByte r)) s) { s with pc := s.pc + 2 }) ∧
    (s.fl ≠ .equal → Yields (exec (.jne (regByte r)) s) { s with pc := (s.reg r).toNat }) ∧
    (s.fl = .equal → Yields (exec (.jne (regByte r)) s) { s with pc := s.pc + 2 })

/-- 10_state.md R16: the next pc of every instruction that completes, each from the pc the step began with, and CALL's
return address from it too. CALL R7, whose register the table does not fix (decision D19), is in
`CallPushesTheReturnAddressAndJumps`. HLT leaves the pc. -/
def Obligations.NextPcFollowsTheTable : Prop :=
  ∀ (i : Instr) (s t : State), exec i s = .next t → t.run = .running ∨ t.run = .halted → s.run = .running →
    match i with
    | .nop => t.pc = s.pc + 1
    | .prn _ => t.pc = s.pc + 2
    | .push _ => t.pc = s.pc + 2
    | .pop _ => t.pc = s.pc + 2
    | .ldi _ _ => t.pc = s.pc + 3
    | .add _ _ => t.pc = s.pc + 3
    | .mul _ _ => t.pc = s.pc + 3
    | .cmp _ _ => t.pc = s.pc + 3
    | .jeq reg => ∃ r, reg = regByte r ∧ t.pc = if s.fl = .equal then (s.reg r).toNat else s.pc + 2
    | .jne reg => ∃ r, reg = regByte r ∧ t.pc = if s.fl = .equal then s.pc + 2 else (s.reg r).toNat
    | .call reg => ∃ r, reg = regByte r ∧ (r ≠ 7 → t.pc = (s.reg r).toNat) ∧
        (s.mem.wf = true → s.pc ≤ 253 → (t.mem.read t.sp.toNat).toNat = s.pc + 2)
    | .jmp reg => ∃ r, reg = regByte r ∧ t.pc = (s.reg r).toNat
    | .ret => t.pc = (s.mem.read s.sp.toNat).toNat
    | .hlt => t.pc = s.pc

/-! ### Faults -/

/-- A used register operand above 7 raises BoundsViolation(REG, operand), operand_a before operand_b, before any stack
check, taken or not for a conditional jump, and with no effect of the instruction (30_encoding.md section 2,
60_exceptions.md sections 2 and 3; the whole-byte check, the untaken jump, the order and the precision are decisions
D18, D20, D3 and D2). -/
def Obligations.RegisterOperandAboveSevenFaults : Prop :=
  ∀ (x y : Byte) (s : State),
    (7 < x.toNat →
      ∀ i ∈ [Instr.ldi x y, .prn x, .push x, .pop x, .call x, .jmp x, .jeq x, .jne x, .add x y, .mul x y, .cmp x y],
        Yields (exec i s) { s with run := .faulted (.boundsViolation .reg x.toNat s.pc) }) ∧
    (x.toNat ≤ 7 → 7 < y.toNat →
      ∀ i ∈ [Instr.add x y, .mul x y, .cmp x y],
        Yields (exec i s) { s with run := .faulted (.boundsViolation .reg y.toNat s.pc) })

/-- Register bounds violations are raised by exactly the ill-formed instructions; so NOP, HLT and RET never raise one, an
immediate never does, and an ignored byte never does (60_exceptions.md section 2, 30_encoding.md section 2). Ill-formed is
the model's word for an operand above 7 that names a register (DESIGN CHOICE, log 16). That each of them faults rests on the
spec's own decisions: D18 (the whole byte, no masking), D20 (an untaken JEQ or JNE too), D3 (before the SP check), and D8
(FAULTED is machine state). -/
def Obligations.RegisterFaultExactlyWhenIllFormed : Prop :=
  ∀ (i : Instr) (s t : State), s.run = .running → exec i s = .next t →
    ((∃ v pc, t.run = .faulted (.boundsViolation .reg v pc)) ↔ i.wellFormed = false)

/-- SP leaving 0..255 is a fault with no effect: PUSH and CALL at SP = 0 raise BoundsViolation(MEM, -1); POP and RET at
SP = 255, and POP R7 of the byte 255, raise BoundsViolation(MEM, 256) (20_memory.md section 4, the spec's decisions D4 and
D2; that SP = 255 means a register other than 7 is DEDUCED, log 7). -/
def Obligations.StackPointerLeavingTheRangeFaults : Prop :=
  ∀ (r : Fin 8) (s : State),
    (s.sp = 0x00#8 → ∀ i ∈ [Instr.push (regByte r), .call (regByte r)],
      Yields (exec i s) { s with run := .faulted (.boundsViolation .mem (-1) s.pc) }) ∧
    (s.sp = 0xFF#8 → r ≠ 7 → ∀ i ∈ [Instr.pop (regByte r), .ret],
      Yields (exec i s) { s with run := .faulted (.boundsViolation .mem 256 s.pc) }) ∧
    (s.mem.read s.sp.toNat = 0xFF#8 →
      Yields (exec (.pop (regByte 7)) s) { s with run := .faulted (.boundsViolation .mem 256 s.pc) })

/-- Faults are precise (60_exceptions.md section 1, the spec's decision D2): a step that ends FAULTED changes no register,
pc, FL, memory byte or output byte; the record holds the pc; IR holds the opcode if it was fetched and is unchanged
otherwise. -/
def Obligations.FaultsArePrecise : Prop :=
  ∀ (s t : State) (r : FaultRecord), step s = .next t → t.run = .faulted r →
    t.regs = s.regs ∧ t.pc = s.pc ∧ t.fl = s.fl ∧ t.mem = s.mem ∧ t.out = s.out ∧ r.pc = s.pc ∧
    t.ir = if s.pc ≤ 255 then s.mem.read s.pc else s.ir

/-- No step of any state raises InternalInvariantViolation (60_exceptions.md section 2, decision D16). -/
def Obligations.NoStepRaisesInternalInvariantViolation : Prop :=
  ∀ (s t : State) (pc : Nat), step s = .next t → t.run ≠ .faulted (.internalInvariantViolation pc)

/-! ### Registers, memory and the stack over all instructions -/

/-- The only register writes (10_state.md section 1): LDI, POP, ADD, MUL of their operand_a, and SP by PUSH, POP, CALL, RET.
So CALL and RET leave x[0] to x[6]. -/
def Obligations.OnlyNamedRegistersChange : Prop :=
  ∀ (i : Instr) (s t : State) (q : Fin 8), exec i s = .next t → t.reg q ≠ s.reg q →
    match i with
    | .ldi reg _ => reg = regByte q
    | .add reg _ => reg = regByte q
    | .mul reg _ => reg = regByte q
    | .pop reg => reg = regByte q ∨ q = 7
    | .push _ => q = 7
    | .call _ => q = 7
    | .ret => q = 7
    | .nop => False | .hlt => False | .prn _ => False
    | .jmp _ => False | .jeq _ => False | .jne _ => False | .cmp _ _ => False

/-- Only PUSH and CALL store, and only the byte just below the old SP (20_memory.md sections 1, 2 and 4); every other step
leaves memory as it was. -/
def Obligations.OnlyPushAndCallWriteMemory : Prop :=
  ∀ s t : State, s.mem.wf = true → step s = .next t →
    t.mem = s.mem ∨
    (s.pc ≤ 253 ∧ (s.mem.read s.pc = 0x45#8 ∨ s.mem.read s.pc = 0x50#8) ∧ s.sp ≠ 0x00#8 ∧
      ∀ a : Nat, a ≠ (s.sp - 1#8).toNat → t.mem.read a = s.mem.read a)

/-- 20_memory.md R42, R43, R44: a read returns the byte at 0 <= addr <= 255 and changes nothing, a write changes that byte
alone, repeating either changes nothing more, and any other address is a bounds violation that neither wraps nor clamps. -/
def Obligations.MemoryAccessIsOneByteInBounds : Prop :=
  (∀ (s : State) (addr : Int), 0 ≤ addr → addr ≤ 255 → ∃ mar mdr : Byte,
    s.readMem addr = .ok (s.mem.read addr.toNat, { s with mar := mar, mdr := mdr })) ∧
  (∀ (s : State) (addr : Int), addr < 0 ∨ 255 < addr → s.readMem addr = .error (.boundsViolation .mem addr)) ∧
  (∀ (s : State) (addr : Int) (v : Byte), s.mem.wf = true → 0 ≤ addr → addr ≤ 255 →
    ∃ (m : Memory) (mar mdr : Byte),
      s.writeMem addr v = .ok { s with mem := m, mar := mar, mdr := mdr } ∧ m.wf = true ∧
      (∀ a : Nat, m.read a = if a = addr.toNat then v else s.mem.read a) ∧
      ∃ mar' mdr' : Byte, ({ s with mem := m } : State).writeMem addr v =
        .ok { s with mem := m, mar := mar', mdr := mdr' }) ∧
  (∀ (s : State) (addr : Int) (v : Byte), addr < 0 ∨ 255 < addr →
    s.writeMem addr v = .error (.boundsViolation .mem addr))

/-- PUSH then POP (42_straight_line.md section 6, derived there): after PUSH r with r <= 6 at SP >= 1, any state with that SP
and that byte still there gets x[r] and SP back from POP r. -/
def Obligations.PopAfterPushRestores : Prop :=
  ∀ (r : Fin 8) (s : State), s.mem.wf = true → r ≠ 7 → s.sp ≠ 0x00#8 →
    ∃ t, exec (.push (regByte r)) s = .next t ∧ t.sp = s.sp - 1#8 ∧
      ∀ u : State, u.sp = t.sp → u.mem.read t.sp.toNat = t.mem.read t.sp.toNat →
        ∃ v, exec (.pop (regByte r)) u = .next v ∧ v.reg r = s.reg r ∧ v.sp = s.sp

/-- PUSH R7 then POP R7, which PopAfterPushRestores leaves out: after PUSH R7 at SP >= 1, any state with that SP and that
byte still there gets the old SP back from POP R7. It follows from 42_straight_line.md sections 4 and 5 with the spec's own
decision D19; the last sentence of section 6 says otherwise and the model sets it aside (DEDUCED, log 19). -/
def Obligations.PopR7AfterPushR7RestoresSp : Prop :=
  ∀ s : State, s.mem.wf = true → s.sp ≠ 0x00#8 →
    ∃ t, exec (.push (regByte 7)) s = .next t ∧ t.sp = s.sp - 1#8 ∧ t.mem.read t.sp.toNat = t.sp ∧
      ∀ u : State, u.sp = t.sp → u.mem.read t.sp.toNat = t.mem.read t.sp.toNat →
        ∃ v, exec (.pop (regByte 7)) u = .next v ∧ v.sp = s.sp

/-- CALL then RET (43_control_flow.md section 5, derived there): after CALL at c, any state with that SP and the return
address still there resumes from RET at c + 2 with the caller's SP and its other registers as they are. -/
def Obligations.RetAfterCallResumes : Prop :=
  ∀ (r : Fin 8) (s : State), s.mem.wf = true → s.pc ≤ 253 → s.sp ≠ 0x00#8 →
    ∃ t, exec (.call (regByte r)) s = .next t ∧ t.sp = s.sp - 1#8 ∧
      ∀ u : State, u.sp = t.sp → u.mem.read t.sp.toNat = t.mem.read t.sp.toNat →
        ∃ v, exec .ret u = .next v ∧ v.pc = s.pc + 2 ∧ v.sp = s.sp ∧ ∀ q, q ≠ 7 → v.reg q = u.reg q

/-- Code is data (20_memory.md section 6, decision D17): a PUSH whose slot is the next instruction's opcode byte changes
the opcode the next step fetches. -/
def Obligations.APushedByteIsTheNextOpcode : Prop :=
  ∀ (r : Fin 8) (s : State), s.mem.wf = true → s.run = .running → r ≠ 7 →
    s.mem.read s.pc = 0x45#8 → s.mem.read (s.pc + 1) = regByte r → s.pc ≤ 251 →
    s.sp ≠ 0x00#8 → (s.sp - 1#8).toNat = s.pc + 2 →
    ∃ t, step s = .next t ∧ t.pc = s.pc + 2 ∧ ∀ u, step t = .next u → u.ir = s.reg r

/-- Memory that reads zero everywhere is a run of NOPs up to address 254, where the fetch faults (70_reset_and_hazards.md
section 2, the empty image, derived there; the fault is decision D1). -/
def Obligations.ZeroMemoryRunsNopsAndFaultsAt254 : Prop :=
  ∀ s : State, s.run = .running → (∀ a : Nat, s.mem.read a = 0x00#8) →
    (∀ n : Nat, s.pc + (n + 1) ≤ 254 → Yields (Sys2Proof.core.run (n + 1) s)
      { s with pc := s.pc + (n + 1), ir := 0x00#8 }) ∧
    ∀ n : Nat, s.pc + n = 254 → Yields (Sys2Proof.core.run (n + 1) s)
      { s with pc := 254, ir := 0x00#8, run := .faulted (.boundsViolation .mem 256 254) }

/-! ### The host -/

/-- Load (70_reset_and_hazards.md section 2): on the reset memory an image of at most 256 bytes lies at 0, the bytes past
it read 0, and nothing but memory changes; a longer one is refused with BoundsViolation(MEM, 256) (decision D15; the
refusal's name is the model's, log 12). -/
def Obligations.LoadPlacesTheImageAtZero : Prop :=
  ∀ (image : List Byte) (s : State), s.mem = [] →
    (image.length ≤ 256 → ∃ m : Memory, load image s = .next { s with mem := m } ∧ m.wf = true ∧
      (∀ (k : Nat) (h : k < image.length), m.read k = image[k]) ∧
      ∀ a : Nat, image.length ≤ a → m.read a = 0x00#8) ∧
    (256 < image.length → load image s = .refused (.loadRefused .mem 256))

/-- The host's transactions come in order (70_reset_and_hazards.md section 3, decision D10): a load only before the run and
once, a start only after it, steps only after the start, the final state only once the run has ended, and then the
registers, pc, IR, FL, memory, output and the run outcome. Refusing one out of turn is the model's choice (log 12). -/
def Obligations.HostTransactionsComeInOrder : Prop :=
  ∀ (h : Session) (image : List Byte),
    (h.phase ≠ .afterReset → h.load image = .refused .transactionOutOfTurn) ∧
    (h.phase ≠ .loaded → h.start = .refused .transactionOutOfTurn) ∧
    (h.phase ≠ .started → h.step = .refused .transactionOutOfTurn) ∧
    (∀ f : FinalState, h.readFinal = some f ↔ h.phase = .started ∧
      f.regs = h.core.regs ∧ f.pc = h.core.pc ∧ f.ir = h.core.ir ∧ f.fl = h.core.fl ∧ f.mem = h.core.mem ∧
      f.out = h.core.out ∧ ((h.core.run = .halted ∧ f.outcome = .halted) ∨
        ∃ r, h.core.run = .faulted r ∧ f.outcome = .faulted r)) ∧
    (image.length ≤ 256 → ∃ h1 h2, Session.new.load image = .next h1 ∧ h1.start = .next h2 ∧
      h2.phase = .started ∧ h2.core.run = .running ∧ h2.core.pc = 0)

/-- What the host receives says nothing of the latches (00_scope.md section 3, 10_state.md section 7, decision D6): runs of
any length from states that differ in them alone stop or go on together, and where they go on they have emitted the same
bytes and give the same final state to read. -/
def Obligations.HostLearnsNothingOfTheLatches : Prop :=
  ∀ (k : Nat) (s t : State) (mar mdr : Byte), Sys2Proof.core.run k s = .next t →
    ∃ u : State, Sys2Proof.core.run k ({ s with mar := mar, mdr := mdr } : State) = .next u ∧
      u.out = t.out ∧ u.final = t.final
end

