-- ==== Sys2Proof/Laws/Decode.lean ====
section
/-! SUPPORT. The opcode map and its inverse. -/

namespace Sys2Proof

/-- The decoder's map finds every opcode at its encoding. -/
@[simp] theorem Opcode.ofByte_byte (o : Opcode) : Opcode.ofByte o.byte = some o := by cases o <;> rfl

/-- The decoder's map is exactly the inverse of the encoder's column: no byte is two opcodes. -/
theorem Opcode.ofByte_eq_some {op : Byte} {o : Opcode} : Opcode.ofByte op = some o ↔ op = o.byte := by
  constructor
  · revert op; cases o <;> decide
  · rintro rfl; exact Opcode.ofByte_byte o

@[simp] theorem Opcode.opcode_build (o : Opcode) (opA opB : Byte) : (o.build opA opB).opcode = o := by cases o <;> rfl

theorem Instr.length_operands (i : Instr) : i.operands.length + 1 = i.length := by cases i <;> rfl

/-- The encoding has the instruction's length. -/
@[simp] theorem encode_length (i : Instr) : (encode i).length = i.length := by cases i <;> rfl

end Sys2Proof
end

