-- ==== Sys2Proof/Laws/Memory.lean ====
section
/-! SUPPORT. Reading after writing, and that every memory operation keeps the canonical form. -/

namespace Sys2Proof.Machine

@[simp] theorem Memory.read_nil (a : Nat) : Memory.read [] a = 0#8 := rfl

theorem Memory.read_cell (b : Nat) (w : Byte) (m : Memory) (a : Nat) :
    Memory.read ((b, w) :: m) a = if b = a then w else Memory.read m a := rfl

/-- The canonical form, one cell at a time. -/
theorem Memory.wfFrom_cell (lo b : Nat) (w : Byte) (m : Memory) :
    Memory.wfFrom lo ((b, w) :: m) = true ↔ lo ≤ b ∧ b < 256 ∧ w ≠ 0#8 ∧ Memory.wfFrom (b + 1) m = true := by
  simp only [Memory.wfFrom, Bool.and_eq_true, decide_eq_true_iff, and_assoc]
  rfl

/-- A memory canonical from lo is canonical from any lower address. -/
theorem Memory.wfFrom_mono {lo lo' : Nat} (h : lo' ≤ lo) {m : Memory} (hm : Memory.wfFrom lo m = true) :
    Memory.wfFrom lo' m = true := by
  cases m with
  | nil => rfl
  | cons c m =>
    obtain ⟨h1, h2⟩ := (Memory.wfFrom_cell ..).1 hm
    exact (Memory.wfFrom_cell ..).2 ⟨by omega, h2⟩

/-- Below its first address a canonical memory reads as reset. -/
theorem Memory.read_of_wfFrom {lo a : Nat} {m : Memory} (hm : Memory.wfFrom lo m = true) (h : a < lo) :
    m.read a = 0#8 := by
  induction m generalizing lo with
  | nil => rfl
  | cons c m ih =>
    obtain ⟨h1, _, _, h4⟩ := (Memory.wfFrom_cell ..).1 hm
    rw [Memory.read_cell, if_neg (by omega)]
    exact ih h4 (by omega)

/-- From 256 up a canonical memory lists nothing. -/
theorem Memory.read_of_ge {m : Memory} (hm : m.wf = true) {a : Nat} (h : 256 ≤ a) : m.read a = 0#8 := by
  suffices ∀ lo, Memory.wfFrom lo m = true → m.read a = 0#8 from this 0 hm
  induction m with
  | nil => intros; rfl
  | cons c m ih =>
    intro lo hlo
    obtain ⟨_, h2, _, h4⟩ := (Memory.wfFrom_cell ..).1 hlo
    rw [Memory.read_cell, if_neg (by omega)]
    exact ih (Memory.wfFrom_mono (Nat.zero_le _) h4) _ h4

theorem Memory.read_cons {a : Nat} (v : Byte) {m : Memory} (hm : Memory.wfFrom (a + 1) m = true) (b : Nat) :
    (Memory.cons a v m).read b = if b = a then v else m.read b := by
  unfold Memory.cons
  split
  · next h => split
              · next hb => rw [Memory.read_of_wfFrom hm (by omega)]; exact h.symm
              · rfl
  · rw [Memory.read_cell]; simp only [eq_comm]

theorem Memory.wfFrom_cons {lo a : Nat} (hlo : lo ≤ a) (ha : a < 256) (v : Byte) {m : Memory}
    (hm : Memory.wfFrom (a + 1) m = true) : Memory.wfFrom lo (Memory.cons a v m) = true := by
  unfold Memory.cons
  split
  · exact Memory.wfFrom_mono (by omega) hm
  · next h => exact (Memory.wfFrom_cell ..).2 ⟨hlo, ha, h, hm⟩

theorem Memory.read_write_from {lo : Nat} {m : Memory} (hm : Memory.wfFrom lo m = true) (a : Nat) (v : Byte) (b : Nat) :
    (m.write a v).read b = if b = a then v else m.read b := by
  induction m generalizing lo with
  | nil => exact Memory.read_cons v rfl b
  | cons c m ih =>
    obtain ⟨c, w⟩ := c
    obtain ⟨_, h2, h3, h4⟩ := (Memory.wfFrom_cell ..).1 hm
    unfold Memory.write
    split
    · rw [Memory.read_cell, Memory.read_cell, ih h4]; split_ifs <;> first | rfl | omega
    · split
      · next hc => subst hc; rw [Memory.read_cons v h4, Memory.read_cell]; split_ifs <;> first | rfl | omega
      · exact Memory.read_cons v ((Memory.wfFrom_cell ..).2 ⟨by omega, h2, h3, h4⟩) b

/-- READ AFTER WRITE: the written byte at its address, every other byte as before (20_memory.md R43, R44). -/
theorem Memory.read_write {m : Memory} (hm : m.wf = true) (a : Nat) (v : Byte) (b : Nat) :
    (m.write a v).read b = if b = a then v else m.read b :=
  Memory.read_write_from hm a v b

theorem Memory.wfFrom_write {lo : Nat} {m : Memory} (hm : Memory.wfFrom lo m = true) {a : Nat} (hlo : lo ≤ a)
    (ha : a < 256) (v : Byte) : Memory.wfFrom lo (m.write a v) = true := by
  induction m generalizing lo with
  | nil => exact Memory.wfFrom_cons hlo ha v rfl
  | cons c m ih =>
    obtain ⟨c, w⟩ := c
    obtain ⟨h1, h2, h3, h4⟩ := (Memory.wfFrom_cell ..).1 hm
    unfold Memory.write
    split
    · exact (Memory.wfFrom_cell ..).2 ⟨h1, h2, h3, ih h4 (by omega)⟩
    · split
      · next hc => subst hc; exact Memory.wfFrom_cons hlo ha v h4
      · exact Memory.wfFrom_cons hlo ha v ((Memory.wfFrom_cell ..).2 ⟨by omega, h2, h3, h4⟩)

/-- EQUAL MEMORIES ARE EQUAL DATA: two canonical memories that read alike are the same list. -/
theorem Memory.ext_read {m n : Memory} (hm : m.wf = true) (hn : n.wf = true) (h : ∀ a, m.read a = n.read a) : m = n := by
  suffices ∀ lo lo', Memory.wfFrom lo m = true → Memory.wfFrom lo' n = true → m = n from this 0 0 hm hn
  clear hm hn
  induction m generalizing n with
  | nil =>
    intro lo lo' _ hn
    cases n with
    | nil => rfl
    | cons d n =>
      obtain ⟨_, _, h3, _⟩ := (Memory.wfFrom_cell ..).1 hn
      exact absurd ((h d.1).trans (if_pos rfl)).symm h3
  | cons c m ih =>
    intro lo lo' hm hn
    obtain ⟨a, v⟩ := c
    obtain ⟨_, _, h3, h4⟩ := (Memory.wfFrom_cell ..).1 hm
    cases n with
    | nil => exact absurd ((h a).symm.trans (if_pos rfl)).symm h3
    | cons d n =>
      obtain ⟨b, w⟩ := d
      obtain ⟨_, _, g3, g4⟩ := (Memory.wfFrom_cell ..).1 hn
      have ha := h a
      have hb := h b
      rw [Memory.read_cell, if_pos rfl, Memory.read_cell] at ha
      rw [Memory.read_cell, Memory.read_cell, if_pos rfl] at hb
      have hab : a = b := by
        rcases Nat.lt_trichotomy a b with hlt | heq | hgt
        · rw [if_neg (by omega), Memory.read_of_wfFrom g4 (by omega)] at ha; exact absurd ha h3
        · exact heq
        · rw [if_neg (by omega), Memory.read_of_wfFrom h4 (by omega)] at hb; exact absurd hb.symm g3
      subst hab
      rw [if_pos rfl] at ha
      subst ha
      rw [ih (n := n) (fun q => ?_) _ _ h4 g4]
      rcases Nat.lt_or_ge a q with hq | hq
      · have := h q; rwa [Memory.read_cell, Memory.read_cell, if_neg (by omega), if_neg (by omega)] at this
      · rw [Memory.read_of_wfFrom h4 (by omega), Memory.read_of_wfFrom g4 (by omega)]

/-- A write keeps the canonical form. -/
theorem Memory.wf_write {m : Memory} (hm : m.wf = true) {a : Nat} (ha : a < 256) (v : Byte) : (m.write a v).wf = true :=
  Memory.wfFrom_write hm (Nat.zero_le _) ha v

/-- Writing a list of bytes keeps the canonical form. -/
theorem Memory.wf_writeList (vs : List Byte) : ∀ {m : Memory} (_ : m.wf = true) (a : Nat), (m.writeList a vs).wf = true := by
  induction vs with
  | nil => intro m hm _; exact hm
  | cons v vs ih =>
    intro m hm a
    unfold Memory.writeList
    split
    · next h => exact ih (Memory.wf_write hm h v) _
    · exact ih hm _

/-- Reading after a list of bytes is written within 0..255. -/
theorem Memory.read_writeList (vs : List Byte) : ∀ {m : Memory} (_ : m.wf = true) (a : Nat) (_ : a + vs.length ≤ 256)
    (b : Nat), (m.writeList a vs).read b = if a ≤ b ∧ b < a + vs.length then vs.getD (b - a) 0#8 else m.read b := by
  induction vs with
  | nil => intro m hm a _ b; simp [Memory.writeList]
  | cons v vs ih =>
    intro m hm a h b
    simp only [List.length_cons] at h
    have ha : a < Config.memSize := by simp; omega
    unfold Memory.writeList
    rw [if_pos ha, ih (Memory.wf_write hm ha v) (a + 1) (by omega), Memory.read_write hm]
    simp only [List.length_cons]
    by_cases hb : b = a
    · subst hb; simp
    · by_cases h1 : a ≤ b ∧ b < a + (vs.length + 1)
      · rw [if_pos (by omega), if_pos h1, show b - a = (b - (a + 1)) + 1 by omega]; rfl
      · rw [if_neg (by omega), if_neg hb, if_neg h1]

/-- The memory after reset is canonical. -/
theorem Memory.wf_reset : State.reset.mem.wf = true := rfl

end Sys2Proof.Machine
end

