-- ==== Sys2Proof/Laws/State.lean ====
section
/-! SUPPORT. One lemma for each field under each update of the state, and the register file read after a write. -/

namespace Sys2Proof.Machine

/-! ### latch -/

@[simp] theorem State.latch_regs (s : State) (addr : Int) (v : Byte) : (s.latch addr v).regs = s.regs := rfl
@[simp] theorem State.latch_pc (s : State) (addr : Int) (v : Byte) : (s.latch addr v).pc = s.pc := rfl
@[simp] theorem State.latch_ir (s : State) (addr : Int) (v : Byte) : (s.latch addr v).ir = s.ir := rfl
@[simp] theorem State.latch_fl (s : State) (addr : Int) (v : Byte) : (s.latch addr v).fl = s.fl := rfl
@[simp] theorem State.latch_mem (s : State) (addr : Int) (v : Byte) : (s.latch addr v).mem = s.mem := rfl
@[simp] theorem State.latch_out (s : State) (addr : Int) (v : Byte) : (s.latch addr v).out = s.out := rfl
@[simp] theorem State.latch_run (s : State) (addr : Int) (v : Byte) : (s.latch addr v).run = s.run := rfl
@[simp] theorem State.latch_mar (s : State) (addr : Int) (v : Byte) : (s.latch addr v).mar = BitVec.ofInt 8 addr := rfl
@[simp] theorem State.latch_mdr (s : State) (addr : Int) (v : Byte) : (s.latch addr v).mdr = v := rfl
@[simp] theorem State.reg_latch (s : State) (addr : Int) (v : Byte) (q : Fin 8) : (s.latch addr v).reg q = s.reg q := rfl
@[simp] theorem State.sp_latch (s : State) (addr : Int) (v : Byte) : (s.latch addr v).sp = s.sp := rfl

/-! ### setReg -/

@[simp] theorem State.setReg_regs (s : State) (r : Fin 8) (v : Byte) : (s.setReg r v).regs = s.regs.set r v := rfl
@[simp] theorem State.setReg_pc (s : State) (r : Fin 8) (v : Byte) : (s.setReg r v).pc = s.pc := rfl
@[simp] theorem State.setReg_ir (s : State) (r : Fin 8) (v : Byte) : (s.setReg r v).ir = s.ir := rfl
@[simp] theorem State.setReg_fl (s : State) (r : Fin 8) (v : Byte) : (s.setReg r v).fl = s.fl := rfl
@[simp] theorem State.setReg_mem (s : State) (r : Fin 8) (v : Byte) : (s.setReg r v).mem = s.mem := rfl
@[simp] theorem State.setReg_out (s : State) (r : Fin 8) (v : Byte) : (s.setReg r v).out = s.out := rfl
@[simp] theorem State.setReg_run (s : State) (r : Fin 8) (v : Byte) : (s.setReg r v).run = s.run := rfl
@[simp] theorem State.setReg_mar (s : State) (r : Fin 8) (v : Byte) : (s.setReg r v).mar = s.mar := rfl
@[simp] theorem State.setReg_mdr (s : State) (r : Fin 8) (v : Byte) : (s.setReg r v).mdr = s.mdr := rfl

/-! ### setSp -/

@[simp] theorem State.setSp_regs (s : State) (v : Byte) : (s.setSp v).regs = s.regs.set 7 v := rfl
@[simp] theorem State.setSp_pc (s : State) (v : Byte) : (s.setSp v).pc = s.pc := rfl
@[simp] theorem State.setSp_ir (s : State) (v : Byte) : (s.setSp v).ir = s.ir := rfl
@[simp] theorem State.setSp_fl (s : State) (v : Byte) : (s.setSp v).fl = s.fl := rfl
@[simp] theorem State.setSp_mem (s : State) (v : Byte) : (s.setSp v).mem = s.mem := rfl
@[simp] theorem State.setSp_out (s : State) (v : Byte) : (s.setSp v).out = s.out := rfl
@[simp] theorem State.setSp_run (s : State) (v : Byte) : (s.setSp v).run = s.run := rfl
@[simp] theorem State.setSp_mar (s : State) (v : Byte) : (s.setSp v).mar = s.mar := rfl
@[simp] theorem State.setSp_mdr (s : State) (v : Byte) : (s.setSp v).mdr = s.mdr := rfl

/-! ### advancePc -/

@[simp] theorem State.advancePc_regs (s : State) (n : Nat) : (s.advancePc n).regs = s.regs := rfl
@[simp] theorem State.advancePc_pc (s : State) (n : Nat) : (s.advancePc n).pc = s.pc + n := rfl
@[simp] theorem State.advancePc_ir (s : State) (n : Nat) : (s.advancePc n).ir = s.ir := rfl
@[simp] theorem State.advancePc_fl (s : State) (n : Nat) : (s.advancePc n).fl = s.fl := rfl
@[simp] theorem State.advancePc_mem (s : State) (n : Nat) : (s.advancePc n).mem = s.mem := rfl
@[simp] theorem State.advancePc_out (s : State) (n : Nat) : (s.advancePc n).out = s.out := rfl
@[simp] theorem State.advancePc_run (s : State) (n : Nat) : (s.advancePc n).run = s.run := rfl
@[simp] theorem State.advancePc_mar (s : State) (n : Nat) : (s.advancePc n).mar = s.mar := rfl
@[simp] theorem State.advancePc_mdr (s : State) (n : Nat) : (s.advancePc n).mdr = s.mdr := rfl
@[simp] theorem State.reg_advancePc (s : State) (n : Nat) (q : Fin 8) : (s.advancePc n).reg q = s.reg q := rfl
@[simp] theorem State.sp_advancePc (s : State) (n : Nat) : (s.advancePc n).sp = s.sp := rfl

/-! ### jumpTo -/

@[simp] theorem State.jumpTo_regs (s : State) (v : Byte) : (s.jumpTo v).regs = s.regs := rfl
@[simp] theorem State.jumpTo_pc (s : State) (v : Byte) : (s.jumpTo v).pc = v.toNat := rfl
@[simp] theorem State.jumpTo_ir (s : State) (v : Byte) : (s.jumpTo v).ir = s.ir := rfl
@[simp] theorem State.jumpTo_fl (s : State) (v : Byte) : (s.jumpTo v).fl = s.fl := rfl
@[simp] theorem State.jumpTo_mem (s : State) (v : Byte) : (s.jumpTo v).mem = s.mem := rfl
@[simp] theorem State.jumpTo_out (s : State) (v : Byte) : (s.jumpTo v).out = s.out := rfl
@[simp] theorem State.jumpTo_run (s : State) (v : Byte) : (s.jumpTo v).run = s.run := rfl
@[simp] theorem State.jumpTo_mar (s : State) (v : Byte) : (s.jumpTo v).mar = s.mar := rfl
@[simp] theorem State.jumpTo_mdr (s : State) (v : Byte) : (s.jumpTo v).mdr = s.mdr := rfl
@[simp] theorem State.reg_jumpTo (s : State) (v : Byte) (q : Fin 8) : (s.jumpTo v).reg q = s.reg q := rfl
@[simp] theorem State.sp_jumpTo (s : State) (v : Byte) : (s.jumpTo v).sp = s.sp := rfl

/-! ### setFl -/

@[simp] theorem State.setFl_regs (s : State) (f : Flag) : (s.setFl f).regs = s.regs := rfl
@[simp] theorem State.setFl_pc (s : State) (f : Flag) : (s.setFl f).pc = s.pc := rfl
@[simp] theorem State.setFl_ir (s : State) (f : Flag) : (s.setFl f).ir = s.ir := rfl
@[simp] theorem State.setFl_fl (s : State) (f : Flag) : (s.setFl f).fl = f := rfl
@[simp] theorem State.setFl_mem (s : State) (f : Flag) : (s.setFl f).mem = s.mem := rfl
@[simp] theorem State.setFl_out (s : State) (f : Flag) : (s.setFl f).out = s.out := rfl
@[simp] theorem State.setFl_run (s : State) (f : Flag) : (s.setFl f).run = s.run := rfl
@[simp] theorem State.setFl_mar (s : State) (f : Flag) : (s.setFl f).mar = s.mar := rfl
@[simp] theorem State.setFl_mdr (s : State) (f : Flag) : (s.setFl f).mdr = s.mdr := rfl
@[simp] theorem State.reg_setFl (s : State) (f : Flag) (q : Fin 8) : (s.setFl f).reg q = s.reg q := rfl
@[simp] theorem State.sp_setFl (s : State) (f : Flag) : (s.setFl f).sp = s.sp := rfl

/-! ### setIr -/

@[simp] theorem State.setIr_regs (s : State) (op : Byte) : (s.setIr op).regs = s.regs := rfl
@[simp] theorem State.setIr_pc (s : State) (op : Byte) : (s.setIr op).pc = s.pc := rfl
@[simp] theorem State.setIr_ir (s : State) (op : Byte) : (s.setIr op).ir = op := rfl
@[simp] theorem State.setIr_fl (s : State) (op : Byte) : (s.setIr op).fl = s.fl := rfl
@[simp] theorem State.setIr_mem (s : State) (op : Byte) : (s.setIr op).mem = s.mem := rfl
@[simp] theorem State.setIr_out (s : State) (op : Byte) : (s.setIr op).out = s.out := rfl
@[simp] theorem State.setIr_run (s : State) (op : Byte) : (s.setIr op).run = s.run := rfl
@[simp] theorem State.setIr_mar (s : State) (op : Byte) : (s.setIr op).mar = s.mar := rfl
@[simp] theorem State.setIr_mdr (s : State) (op : Byte) : (s.setIr op).mdr = s.mdr := rfl
@[simp] theorem State.reg_setIr (s : State) (op : Byte) (q : Fin 8) : (s.setIr op).reg q = s.reg q := rfl
@[simp] theorem State.sp_setIr (s : State) (op : Byte) : (s.setIr op).sp = s.sp := rfl

/-! ### emit -/

@[simp] theorem State.emit_regs (s : State) (v : Byte) : (s.emit v).regs = s.regs := rfl
@[simp] theorem State.emit_pc (s : State) (v : Byte) : (s.emit v).pc = s.pc := rfl
@[simp] theorem State.emit_ir (s : State) (v : Byte) : (s.emit v).ir = s.ir := rfl
@[simp] theorem State.emit_fl (s : State) (v : Byte) : (s.emit v).fl = s.fl := rfl
@[simp] theorem State.emit_mem (s : State) (v : Byte) : (s.emit v).mem = s.mem := rfl
@[simp] theorem State.emit_out (s : State) (v : Byte) : (s.emit v).out = s.out ++ [v] := rfl
@[simp] theorem State.emit_run (s : State) (v : Byte) : (s.emit v).run = s.run := rfl
@[simp] theorem State.emit_mar (s : State) (v : Byte) : (s.emit v).mar = s.mar := rfl
@[simp] theorem State.emit_mdr (s : State) (v : Byte) : (s.emit v).mdr = s.mdr := rfl
@[simp] theorem State.reg_emit (s : State) (v : Byte) (q : Fin 8) : (s.emit v).reg q = s.reg q := rfl
@[simp] theorem State.sp_emit (s : State) (v : Byte) : (s.emit v).sp = s.sp := rfl

/-! ### halt -/

@[simp] theorem State.halt_regs (s : State) : (s.halt).regs = s.regs := rfl
@[simp] theorem State.halt_pc (s : State) : (s.halt).pc = s.pc := rfl
@[simp] theorem State.halt_ir (s : State) : (s.halt).ir = s.ir := rfl
@[simp] theorem State.halt_fl (s : State) : (s.halt).fl = s.fl := rfl
@[simp] theorem State.halt_mem (s : State) : (s.halt).mem = s.mem := rfl
@[simp] theorem State.halt_out (s : State) : (s.halt).out = s.out := rfl
@[simp] theorem State.halt_run (s : State) : (s.halt).run = .halted := rfl
@[simp] theorem State.halt_mar (s : State) : (s.halt).mar = s.mar := rfl
@[simp] theorem State.halt_mdr (s : State) : (s.halt).mdr = s.mdr := rfl
@[simp] theorem State.reg_halt (s : State) (q : Fin 8) : (s.halt).reg q = s.reg q := rfl
@[simp] theorem State.sp_halt (s : State) : (s.halt).sp = s.sp := rfl

/-! ### faultedWith -/

@[simp] theorem State.faultedWith_regs (s : State) (r : FaultRecord) : (s.faultedWith r).regs = s.regs := rfl
@[simp] theorem State.faultedWith_pc (s : State) (r : FaultRecord) : (s.faultedWith r).pc = s.pc := rfl
@[simp] theorem State.faultedWith_ir (s : State) (r : FaultRecord) : (s.faultedWith r).ir = s.ir := rfl
@[simp] theorem State.faultedWith_fl (s : State) (r : FaultRecord) : (s.faultedWith r).fl = s.fl := rfl
@[simp] theorem State.faultedWith_mem (s : State) (r : FaultRecord) : (s.faultedWith r).mem = s.mem := rfl
@[simp] theorem State.faultedWith_out (s : State) (r : FaultRecord) : (s.faultedWith r).out = s.out := rfl
@[simp] theorem State.faultedWith_run (s : State) (r : FaultRecord) : (s.faultedWith r).run = .faulted r := rfl
@[simp] theorem State.faultedWith_mar (s : State) (r : FaultRecord) : (s.faultedWith r).mar = s.mar := rfl
@[simp] theorem State.faultedWith_mdr (s : State) (r : FaultRecord) : (s.faultedWith r).mdr = s.mdr := rfl
@[simp] theorem State.reg_faultedWith (s : State) (r : FaultRecord) (q : Fin 8) : (s.faultedWith r).reg q = s.reg q := rfl
@[simp] theorem State.sp_faultedWith (s : State) (r : FaultRecord) : (s.faultedWith r).sp = s.sp := rfl

/-! ### The register file -/

theorem State.sp_eq_reg (s : State) : s.sp = s.reg 7 := rfl

theorem State.setSp_eq_setReg (s : State) (v : Byte) : s.setSp v = s.setReg 7 v := rfl

@[simp] theorem State.reg_setReg (s : State) (r q : Fin 8) (v : Byte) :
    (s.setReg r v).reg q = if q = r then v else s.reg q := by
  simp only [State.reg, State.setReg, Fin.getElem_fin, Vector.getElem_set, Fin.ext_iff, eq_comm]

@[simp] theorem State.sp_setReg (s : State) (r : Fin 8) (v : Byte) :
    (s.setReg r v).sp = if r = 7 then v else s.sp := by
  simp [State.sp, eq_comm]

@[simp] theorem State.reg_setSp (s : State) (q : Fin 8) (v : Byte) :
    (s.setSp v).reg q = if q = 7 then v else s.reg q := by
  simp [State.setSp]

@[simp] theorem State.sp_setSp (s : State) (v : Byte) : (s.setSp v).sp = v := by
  simp [State.setSp]

/-! ### what the host reads at the end -/

@[simp] theorem RunState.outcome_eq_none (r : RunState) : r.outcome = none ↔ r = .running := by
  cases r <;> simp [RunState.outcome]

@[simp] theorem State.final_eq_none (s : State) : s.final = none ↔ s.run = .running := by
  simp [State.final]

/-- The final state does not hold the latches. -/
@[simp] theorem State.final_latches (s : State) (mar mdr : Byte) :
    ({ s with mar := mar, mdr := mdr } : State).final = s.final := rfl

@[simp] theorem State.final_latch (s : State) (addr : Int) (v : Byte) : (s.latch addr v).final = s.final := rfl

end Sys2Proof.Machine
end

