-- ==== Sys2Proof/Laws/Ops.lean ====
section
/-! SUPPORT. What each shared operation can answer, said once: accesses, the stack pointer's range, register operands,
taking a fault, the end of an instruction, and the fetch. -/

namespace Sys2Proof.Machine

/-! ### Sequencing -/

@[simp] theorem except_ok_bind {α β : Type} (a : α) (f : α → Except FaultCause β) :
    (Except.ok a >>= f) = f a := rfl

@[simp] theorem except_error_bind {α β : Type} (c : FaultCause) (f : α → Except FaultCause β) :
    (Except.error c >>= f) = Except.error c := rfl

@[simp] theorem except_pure {α : Type} (a : α) : (pure a : Except FaultCause α) = Except.ok a := rfl

/-! ### Faults and the end of an instruction -/

@[simp] theorem takeFault_eq (c : FaultCause) (s : State) :
    takeFault c s = .next (s.faultedWith (c.record s.pc)) := rfl

@[simp] theorem settle_ok (s t : State) : settle s (.ok t) = .next t := rfl

@[simp] theorem settle_error (s : State) (c : FaultCause) :
    settle s (.error c) = .next (s.faultedWith (c.record s.pc)) := rfl

/-- An instruction ends in a next state: its result, or its fault taken where it began. -/
theorem settle_cases {s t : State} {x : Except FaultCause State} (h : settle s x = .next t) :
    x = .ok t ∨ ∃ c, x = .error c ∧ t = s.faultedWith (c.record s.pc) := by
  cases x with
  | ok u => exact .inl (by simpa using h)
  | error c => exact .inr ⟨c, rfl, by simpa using h.symm⟩

@[simp] theorem FaultCause.record_pc (c : FaultCause) (pc : Nat) : (c.record pc).pc = pc := by cases c <;> rfl

/-! ### Agreement on the state tuple -/

/-- An outcome that is the next state u yields t when u is t but for the latches. -/
theorem Yields.of_next {o : Host.Outcome State Fault Refusal} {t u : State} (h : o = .next u)
    (hu : u = { t with mar := u.mar, mdr := u.mdr }) : Yields o t :=
  ⟨u.mar, u.mdr, h.trans (congrArg _ hu)⟩

/-! ### Register operands -/

@[simp] theorem regIdx_regByte (r : Fin 8) : regIdx (regByte r) = .ok r := by
  revert r; decide

theorem regIdx_of_gt {op : Byte} (h : 7 < op.toNat) : regIdx op = .error (.boundsViolation .reg op.toNat) :=
  dif_neg (by omega)

theorem regByte_toNat (r : Fin 8) : (regByte r).toNat = r.val := by
  revert r; decide

theorem regByte_inj {r q : Fin 8} : regByte r = regByte q ↔ r = q := by
  revert r q; decide

/-- A register operand is the byte of one of the eight registers, or a bounds violation (30_encoding.md R65). -/
theorem regIdx_cases (op : Byte) :
    (∃ r, op = regByte r ∧ regIdx op = .ok r) ∨
      (7 < op.toNat ∧ regIdx op = .error (.boundsViolation .reg op.toNat)) := by
  by_cases h : op.toNat < 8
  · refine .inl ⟨⟨op.toNat, h⟩, BitVec.eq_of_toNat_eq ?_, dif_pos h⟩
    rw [regByte_toNat]
  · exact .inr ⟨by omega, dif_neg h⟩

/-! ### Memory accesses -/

theorem State.readMem_of_range (s : State) {a : Int} (h0 : 0 ≤ a) (h1 : a < 256) :
    s.readMem a = .ok (s.mem.read a.toNat, s.latch a (s.mem.read a.toNat)) :=
  if_pos ⟨h0, h1⟩

theorem State.readMem_of_not_range (s : State) {a : Int} (h : ¬ (0 ≤ a ∧ a < 256)) :
    s.readMem a = .error (.boundsViolation .mem a) :=
  if_neg h

theorem State.writeMem_of_range (s : State) {a : Int} (v : Byte) (h0 : 0 ≤ a) (h1 : a < 256) :
    s.writeMem a v = .ok { s.latch a v with mem := s.mem.write a.toNat v } :=
  if_pos ⟨h0, h1⟩

theorem State.writeMem_of_not_range (s : State) {a : Int} (v : Byte) (h : ¬ (0 ≤ a ∧ a < 256)) :
    s.writeMem a v = .error (.boundsViolation .mem a) :=
  if_neg h

/-- The read at SP never faults: SP is a byte (42_straight_line.md R125). -/
@[simp] theorem State.readTop_eq (s : State) :
    s.readTop = .ok (s.mem.read s.sp.toNat, s.latch s.sp.toNat (s.mem.read s.sp.toNat)) := by
  have := s.sp.isLt
  rw [State.readTop, State.readMem_of_range _ (by omega) (by omega), Int.toNat_natCast]

/-- The write at SP never faults: SP is a byte. -/
@[simp] theorem State.writeTop_eq (s : State) (v : Byte) :
    s.writeTop v = .ok { s.latch s.sp.toNat v with mem := s.mem.write s.sp.toNat v } := by
  have := s.sp.isLt
  rw [State.writeTop, State.writeMem_of_range _ _ (by omega) (by omega), Int.toNat_natCast]

/-! ### The stack pointer's range (20_memory.md R47) -/

theorem byte_sub_one_toNat {v : Byte} (h : v ≠ 0#8) : (v - 1#8).toNat = v.toNat - 1 := by
  revert v; decide

theorem stackAddr_pred : ∀ {v : Byte}, v ≠ 0#8 → stackAddr ((v.toNat : Int) - 1) = .ok (v - 1#8) := by
  decide

theorem stackAddr_succ : ∀ {v : Byte}, v ≠ 255#8 → stackAddr ((v.toNat : Int) + 1) = .ok (v + 1#8) := by
  decide

theorem State.decSp_of_ne_zero {s : State} (h : s.sp ≠ 0#8) : s.decSp = .ok (s.setSp (s.sp - 1#8)) := by
  simp [State.decSp, stackAddr_pred h]

theorem State.decSp_of_zero {s : State} (h : s.sp = 0#8) : s.decSp = .error (.boundsViolation .mem (-1)) := by
  rw [State.decSp, h]; rfl

theorem State.incSp_of_ne_max {s : State} (h : s.sp ≠ 255#8) : s.incSp = .ok (s.setSp (s.sp + 1#8)) := by
  simp [State.incSp, stackAddr_succ h]

theorem State.incSp_of_max {s : State} (h : s.sp = 255#8) : s.incSp = .error (.boundsViolation .mem 256) := by
  have h1 : stackAddr (((255#8 : Byte).toNat : Int) + 1) = .error (.boundsViolation .mem 256) := if_neg (by decide)
  rw [State.incSp, h, h1]; rfl

/-! ### The fetch (40_execution_loop.md R81, R82) -/

theorem State.reading_of_range {α : Type} (s : State) {a : Int} (go : Byte → State → State × Except FaultCause α)
    (h0 : 0 ≤ a) (h1 : a < 256) :
    s.reading a go = go (s.mem.read a.toNat) (s.latch a (s.mem.read a.toNat)) := by
  rw [State.reading, s.readMem_of_range h0 h1]; rfl

theorem State.reading_of_not_range {α : Type} (s : State) {a : Int}
    (go : Byte → State → State × Except FaultCause α) (h : ¬ (0 ≤ a ∧ a < 256)) :
    s.reading a go = (s, .error (.boundsViolation .mem a)) := by
  rw [State.reading, s.readMem_of_not_range h]; rfl

/-- At pc <= 253 all three bytes are fetched. -/
theorem fetch_of_le {s : State} (h : s.pc ≤ 253) : ∃ mar mdr : Byte,
    fetch s = ({ s with ir := s.mem.read s.pc, mar := mar, mdr := mdr },
      .ok (s.mem.read s.pc, s.mem.read (s.pc + 1), s.mem.read (s.pc + 2))) := by
  have h1 : ((s.pc : Int) + 1).toNat = s.pc + 1 := by omega
  have h2 : ((s.pc : Int) + 2).toNat = s.pc + 2 := by omega
  refine ⟨BitVec.ofInt 8 (s.pc + 2), s.mem.read (s.pc + 2), ?_⟩
  rw [fetch, State.reading_of_range _ _ (by omega) (by omega), State.reading_of_range _ _ (by omega) (by omega),
    State.reading_of_range _ _ (by omega) (by omega), h1, h2, Int.toNat_natCast]
  rfl

/-- At pc = 254 or 255 the opcode is fetched and an operand fetch raises BoundsViolation(MEM, 256). -/
theorem fetch_of_254_255 {s : State} (h : s.pc = 254 ∨ s.pc = 255) : ∃ mar mdr : Byte,
    fetch s = ({ s with ir := s.mem.read s.pc, mar := mar, mdr := mdr }, .error (.boundsViolation .mem 256)) := by
  rcases h with h | h
  · have h1 : (s.pc : Int) + 2 = 256 := by omega
    refine ⟨BitVec.ofInt 8 (s.pc + 1), s.mem.read ((s.pc : Int) + 1).toNat, ?_⟩
    rw [fetch, State.reading_of_range _ _ (by omega) (by omega), State.reading_of_range _ _ (by omega) (by omega),
      State.reading_of_not_range _ _ (by omega), h1, Int.toNat_natCast]
    rfl
  · have h1 : (s.pc : Int) + 1 = 256 := by omega
    refine ⟨BitVec.ofInt 8 s.pc, s.mem.read s.pc, ?_⟩
    rw [fetch, State.reading_of_range _ _ (by omega) (by omega), State.reading_of_not_range _ _ (by omega), h1,
      Int.toNat_natCast]
    rfl

/-- From pc = 256 up the opcode fetch itself raises. -/
theorem fetch_of_ge {s : State} (h : 256 ≤ s.pc) : fetch s = (s, .error (.boundsViolation .mem s.pc)) := by
  rw [fetch, State.reading_of_not_range _ _ (by omega)]

/-- Everything a fetch can answer. -/
theorem fetch_cases (s : State) :
    (s.pc ≤ 253 ∧ ∃ mar mdr : Byte, fetch s = ({ s with ir := s.mem.read s.pc, mar := mar, mdr := mdr },
        .ok (s.mem.read s.pc, s.mem.read (s.pc + 1), s.mem.read (s.pc + 2)))) ∨
      ((s.pc = 254 ∨ s.pc = 255) ∧ ∃ mar mdr : Byte,
        fetch s = ({ s with ir := s.mem.read s.pc, mar := mar, mdr := mdr }, .error (.boundsViolation .mem 256))) ∨
      (256 ≤ s.pc ∧ fetch s = (s, .error (.boundsViolation .mem s.pc))) := by
  by_cases h : s.pc ≤ 253
  · exact .inl ⟨h, fetch_of_le h⟩
  · by_cases h' : s.pc = 254 ∨ s.pc = 255
    · exact .inr (.inl ⟨h', fetch_of_254_255 h'⟩)
    · exact .inr (.inr ⟨by omega, fetch_of_ge (by omega)⟩)

end Sys2Proof.Machine
end

