-- ==== Sys2Proof/Laws/Exec.lean ====
section
/-! SUPPORT. What the shared shapes of the meanings and the step can answer, said once. -/

namespace Sys2Proof.Machine

/-- Every meaning ends by `settle` in the state it began in. -/
theorem exec_settles (i : Instr) (s : State) : ∃ x, exec i s = settle s x := by
  cases i <;> simp only [exec, execNop, execHlt, execRet, execPush, execPop, execPrn, execCall, execJmp, execJeq, execJne,
    execJumpIf, execLdi, execAdd, execMul, execCmp, execAlu] <;> exact ⟨_, rfl⟩

/-- An F2R instruction on registers that exist is the ALU's result placed and the pc advanced. -/
theorem execAlu_regs (o : Opcode) (a b : Fin 8) (s : State) :
    execAlu o (regByte a) (regByte b) s =
      settle s (alu o (s.reg a) (s.reg b) >>= fun x => pure ((s.putAlu a x).advancePc 3)) := by
  simp [execAlu]

/-- operand_a above 7 faults first. -/
theorem execAlu_badA (o : Opcode) {regA : Byte} (h : 7 < regA.toNat) (regB : Byte) (s : State) :
    execAlu o regA regB s = .next (s.faultedWith (.boundsViolation .reg regA.toNat s.pc)) := by
  simp [execAlu, regIdx_of_gt h, FaultCause.record]

/-- operand_b above 7 faults when operand_a exists. -/
theorem execAlu_badB (o : Opcode) (a : Fin 8) {regB : Byte} (h : 7 < regB.toNat) (s : State) :
    execAlu o (regByte a) regB s = .next (s.faultedWith (.boundsViolation .reg regB.toNat s.pc)) := by
  simp [execAlu, regIdx_of_gt h, FaultCause.record]

/-- Everything an F2R instruction of an operation the ALU has can answer. -/
theorem execAlu_cases {o : Opcode} {regA regB : Byte} {s t : State} {f : Byte → Byte → AluResult}
    (ho : ∀ u v, alu o u v = .ok (f u v)) (h : execAlu o regA regB s = .next t) :
    (∃ a b, regA = regByte a ∧ regB = regByte b ∧ t = (s.putAlu a (f (s.reg a) (s.reg b))).advancePc 3) ∨
      (7 < regA.toNat ∧ t = s.faultedWith (.boundsViolation .reg regA.toNat s.pc)) ∨
      (∃ a, regA = regByte a ∧ 7 < regB.toNat ∧ t = s.faultedWith (.boundsViolation .reg regB.toNat s.pc)) := by
  rcases regIdx_cases regA with ⟨a, rfl, _⟩ | ⟨ha, _⟩
  · rcases regIdx_cases regB with ⟨b, rfl, _⟩ | ⟨hb, _⟩
    · rw [execAlu_regs, ho] at h
      simp only [except_ok_bind, except_pure, settle_ok, Host.Outcome.next.injEq] at h
      exact .inl ⟨a, b, rfl, rfl, h.symm⟩
    · rw [execAlu_badB o a hb, Host.Outcome.next.injEq] at h
      exact .inr (.inr ⟨a, rfl, hb, h.symm⟩)
  · rw [execAlu_badA o ha, Host.Outcome.next.injEq] at h
    exact .inr (.inl ⟨ha, h.symm⟩)

/-- A register jump on a register that exists. -/
theorem execJumpIf_reg (taken : Bool) (r : Fin 8) (s : State) :
    execJumpIf taken (regByte r) s = .next (if taken then s.jumpTo (s.reg r) else s.advancePc 2) := by
  simp [execJumpIf]

/-- Everything a register jump can answer. -/
theorem execJumpIf_cases {taken : Bool} {reg : Byte} {s t : State} (h : execJumpIf taken reg s = .next t) :
    (∃ r, reg = regByte r ∧ t = if taken then s.jumpTo (s.reg r) else s.advancePc 2) ∨
      (7 < reg.toNat ∧ t = s.faultedWith (.boundsViolation .reg reg.toNat s.pc)) := by
  rcases regIdx_cases reg with ⟨r, rfl, _⟩ | ⟨hr, hx⟩
  · rw [execJumpIf_reg, Host.Outcome.next.injEq] at h
    exact .inl ⟨r, rfl, h.symm⟩
  · simp only [execJumpIf, hx, except_error_bind, settle_error, Host.Outcome.next.injEq] at h
    exact .inr ⟨hr, h.symm⟩

/-- Everything LDI can answer. -/
theorem execLdi_cases {reg imm : Byte} {s t : State} (h : execLdi reg imm s = .next t) :
    (∃ r, reg = regByte r ∧ t = (s.setReg r imm).advancePc 3) ∨
      (7 < reg.toNat ∧ t = s.faultedWith (.boundsViolation .reg reg.toNat s.pc)) := by
  rcases regIdx_cases reg with ⟨r, rfl, hx⟩ | ⟨hr, hx⟩ <;>
    simp only [execLdi, hx, except_ok_bind, except_error_bind, except_pure, settle_ok, settle_error,
      Host.Outcome.next.injEq] at h
  · exact .inl ⟨r, rfl, h.symm⟩
  · exact .inr ⟨hr, h.symm⟩

/-- Everything PRN can answer. -/
theorem execPrn_cases {reg : Byte} {s t : State} (h : execPrn reg s = .next t) :
    (∃ r, reg = regByte r ∧ t = (s.emit (s.reg r)).advancePc 2) ∨
      (7 < reg.toNat ∧ t = s.faultedWith (.boundsViolation .reg reg.toNat s.pc)) := by
  rcases regIdx_cases reg with ⟨r, rfl, hx⟩ | ⟨hr, hx⟩ <;>
    simp only [execPrn, hx, except_ok_bind, except_error_bind, except_pure, settle_ok, settle_error,
      Host.Outcome.next.injEq] at h
  · exact .inl ⟨r, rfl, h.symm⟩
  · exact .inr ⟨hr, h.symm⟩

/-- The state a push of v leaves: SP one lower, v at the new SP, the latches loaded. -/
theorem State.push_eq (s : State) (v : Byte) :
    (s.setSp (s.sp - 1#8)).writeTop v =
      .ok { (s.setSp (s.sp - 1#8)).latch (s.sp - 1#8).toNat v with mem := s.mem.write (s.sp - 1#8).toNat v } := by
  rw [State.writeTop_eq, State.sp_setSp, State.setSp_mem]

/-- Everything PUSH can answer. -/
theorem execPush_cases {reg : Byte} {s t : State} (h : execPush reg s = .next t) :
    (∃ r, ∃ v : Byte, reg = regByte r ∧ s.sp ≠ 0#8 ∧ v = (s.setSp (s.sp - 1#8)).reg r ∧
      t = State.advancePc { (s.setSp (s.sp - 1#8)).latch (s.sp - 1#8).toNat v with
        mem := s.mem.write (s.sp - 1#8).toNat v } 2) ∨
      (7 < reg.toNat ∧ t = s.faultedWith (.boundsViolation .reg reg.toNat s.pc)) ∨
      (∃ r, reg = regByte r ∧ s.sp = 0#8 ∧ t = s.faultedWith (.boundsViolation .mem (-1) s.pc)) := by
  rcases regIdx_cases reg with ⟨r, rfl, hx⟩ | ⟨hr, hx⟩
  · by_cases hs : s.sp = 0#8
    · simp only [execPush, hx, except_ok_bind, State.decSp_of_zero hs, except_error_bind, settle_error,
        Host.Outcome.next.injEq] at h
      exact .inr (.inr ⟨r, rfl, hs, h.symm⟩)
    · simp only [execPush, hx, except_ok_bind, State.decSp_of_ne_zero hs, State.push_eq, except_pure, settle_ok,
        Host.Outcome.next.injEq] at h
      exact .inl ⟨r, _, rfl, hs, rfl, h.symm⟩
  · simp only [execPush, hx, except_error_bind, settle_error, Host.Outcome.next.injEq] at h
    exact .inr (.inl ⟨hr, h.symm⟩)

/-- Everything CALL can answer. -/
theorem execCall_cases {reg : Byte} {s t : State} (h : execCall reg s = .next t) :
    (∃ r, reg = regByte r ∧ s.sp ≠ 0#8 ∧
      t = State.jumpTo { (s.setSp (s.sp - 1#8)).latch (s.sp - 1#8).toNat s.returnAddr with
        mem := s.mem.write (s.sp - 1#8).toNat s.returnAddr } ((s.setSp (s.sp - 1#8)).reg r)) ∨
      (7 < reg.toNat ∧ t = s.faultedWith (.boundsViolation .reg reg.toNat s.pc)) ∨
      (∃ r, reg = regByte r ∧ s.sp = 0#8 ∧ t = s.faultedWith (.boundsViolation .mem (-1) s.pc)) := by
  rcases regIdx_cases reg with ⟨r, rfl, hx⟩ | ⟨hr, hx⟩
  · by_cases hs : s.sp = 0#8
    · simp only [execCall, hx, except_ok_bind, State.decSp_of_zero hs, except_error_bind, settle_error,
        Host.Outcome.next.injEq] at h
      exact .inr (.inr ⟨r, rfl, hs, h.symm⟩)
    · simp only [execCall, hx, except_ok_bind, State.decSp_of_ne_zero hs, State.push_eq, except_pure, settle_ok,
        Host.Outcome.next.injEq] at h
      exact .inl ⟨r, rfl, hs, h.symm⟩
  · simp only [execCall, hx, except_error_bind, settle_error, Host.Outcome.next.injEq] at h
    exact .inr (.inl ⟨hr, h.symm⟩)

/-- Everything POP can answer: u is the state with the popped byte in the register. -/
theorem execPop_cases {reg : Byte} {s t : State} (h : execPop reg s = .next t) :
    (∃ r, ∃ u : State, reg = regByte r ∧
      u = (s.latch s.sp.toNat (s.mem.read s.sp.toNat)).setReg r (s.mem.read s.sp.toNat) ∧
      ((u.sp ≠ 255#8 ∧ t = (u.setSp (u.sp + 1#8)).advancePc 2) ∨
        (u.sp = 255#8 ∧ t = s.faultedWith (.boundsViolation .mem 256 s.pc)))) ∨
      (7 < reg.toNat ∧ t = s.faultedWith (.boundsViolation .reg reg.toNat s.pc)) := by
  rcases regIdx_cases reg with ⟨r, rfl, hx⟩ | ⟨hr, hx⟩
  · refine .inl ⟨r, _, rfl, rfl, ?_⟩
    simp only [execPop, hx, except_ok_bind, State.readTop_eq] at h
    by_cases hs : ((s.latch s.sp.toNat (s.mem.read s.sp.toNat)).setReg r (s.mem.read s.sp.toNat)).sp = 255#8
    · rw [State.incSp_of_max hs, except_error_bind, settle_error, Host.Outcome.next.injEq] at h
      exact .inr ⟨hs, h.symm⟩
    · rw [State.incSp_of_ne_max hs, except_ok_bind, except_pure, settle_ok, Host.Outcome.next.injEq] at h
      exact .inl ⟨hs, h.symm⟩
  · simp only [execPop, hx, except_error_bind, settle_error, Host.Outcome.next.injEq] at h
    exact .inr ⟨hr, h.symm⟩

/-- Everything RET can answer. -/
theorem execRet_cases {s t : State} (h : execRet s = .next t) :
    (s.sp ≠ 255#8 ∧ t = State.jumpTo ((s.latch s.sp.toNat (s.mem.read s.sp.toNat)).setSp (s.sp + 1#8))
        (s.mem.read s.sp.toNat)) ∨
      (s.sp = 255#8 ∧ t = s.faultedWith (.boundsViolation .mem 256 s.pc)) := by
  simp only [execRet, except_ok_bind, State.readTop_eq] at h
  by_cases hs : s.sp = 255#8
  · rw [State.incSp_of_max (by exact hs), except_error_bind, settle_error, Host.Outcome.next.injEq] at h
    exact .inr ⟨hs, h.symm⟩
  · rw [State.incSp_of_ne_max (by exact hs), except_ok_bind, except_pure, settle_ok, Host.Outcome.next.injEq] at h
    exact .inl ⟨hs, h.symm⟩

/-- Everything a step that answers a next state can have done: the fetch of the opcode at 256 or above raised, an operand
fetch raised, the opcode is outside the map, or the decoded instruction ran. -/
theorem step_cases {s t : State} (h : step s = .next t) : s.run = .running ∧
    ((256 ≤ s.pc ∧ t = s.faultedWith (.boundsViolation .mem s.pc s.pc)) ∨
      ∃ mar mdr : Byte, ∃ s1 : State, s1 = { s with ir := s.mem.read s.pc, mar := mar, mdr := mdr } ∧
        (((s.pc = 254 ∨ s.pc = 255) ∧ t = s1.faultedWith (.boundsViolation .mem 256 s.pc)) ∨
          (s.pc ≤ 253 ∧ Opcode.ofByte (s.mem.read s.pc) = none ∧
            t = s1.faultedWith (.decodeFailure (s.mem.read s.pc) s.pc)) ∨
          (s.pc ≤ 253 ∧ ∃ o, Opcode.ofByte (s.mem.read s.pc) = some o ∧
            exec (o.build (s.mem.read (s.pc + 1)) (s.mem.read (s.pc + 2))) s1 = .next t))) := by
  simp only [step, cycle] at h
  split at h
  · next hr =>
    refine ⟨hr, ?_⟩
    rcases fetch_cases s with ⟨hp, mar, mdr, hf⟩ | ⟨hp, mar, mdr, hf⟩ | ⟨hp, hf⟩
    · refine .inr ⟨mar, mdr, _, rfl, .inr ?_⟩
      simp only [runCycle, hf, afterFetch, decodeExecute, decode] at h
      split at h
      · next e he =>
        split at he
        · next ho => exact .inl ⟨hp, ho, by simpa [FaultCause.record] using h.symm⟩
        · cases he
      · next i he =>
        split at he
        · cases he
        · next o ho =>
          rw [Except.ok.injEq] at he
          exact .inr ⟨hp, o, ho, he ▸ h⟩
    · refine .inr ⟨mar, mdr, _, rfl, .inl ⟨hp, ?_⟩⟩
      simpa [runCycle, hf, afterFetch, FaultCause.record] using h.symm
    · refine .inl ⟨hp, ?_⟩
      simpa [runCycle, hf, afterFetch, FaultCause.record] using h.symm
  · cases h
  · cases h

/-- One more step of a run is a step, then the run from where it lands. -/
theorem run_succ_of_next {s t : State} (h : step s = .next t) (k : Nat) :
    Sys2Proof.core.run (k + 1) s = Sys2Proof.core.run k t := by
  have unfoldRun : ∀ (M : Host.Core) (u v : M.State), M.step u = .next v → M.run (k + 1) u = M.run k v := by
    intro M u v e
    rw [Host.Core.run, e]
  exact unfoldRun Sys2Proof.core s t h

/-- A run of one more step that goes on is a step that goes on, then a run that does. -/
theorem run_succ_eq_next {s t : State} {k : Nat} :
    Sys2Proof.core.run (k + 1) s = .next t ↔ ∃ u, step s = .next u ∧ Sys2Proof.core.run k u = .next t := by
  constructor
  · intro h
    cases hs : step s with
    | next u => exact ⟨u, rfl, run_succ_of_next hs k ▸ h⟩
    | fault r =>
      have stops : ∀ (M : Host.Core) (v : M.State) (r : M.Fault), M.step v = .fault r → M.run (k + 1) v = .fault r := by
        intro M v r e
        rw [Host.Core.run, e]
      rw [stops Sys2Proof.core s r hs] at h
      cases h
    | refused r =>
      have stops : ∀ (M : Host.Core) (v : M.State) (r : M.Refusal), M.step v = .refused r → M.run (k + 1) v = .refused r := by
        intro M v r e
        rw [Host.Core.run, e]
      rw [stops Sys2Proof.core s r hs] at h
      cases h
  · rintro ⟨u, hs, h⟩
    exact run_succ_of_next hs k ▸ h

end Sys2Proof.Machine
end

