-- ==== Sys2Proof/Laws/PerInstr.lean ====
section
/-! SUPPORT. Facts stated of every instruction as syntax, one lemma for each constructor: the encoding begins with the
instruction's own opcode byte, its length is the instruction's, and the opcode map finds that opcode again. -/

namespace Sys2Proof.Laws.EncodedHead

/-- The first byte of the encoding is the instruction's opcode, the map finds it, and the length is 1 plus the operands
(30_encoding.md R60, R63, R66). -/
def Statement (i : Instr) : Prop :=
  (encode i).head? = some i.opcode.byte ∧ Opcode.ofByte i.opcode.byte = some i.opcode ∧
    (encode i).length = 1 + i.operands.length

theorem nop : Statement .nop := ⟨rfl, rfl, rfl⟩
theorem hlt : Statement .hlt := ⟨rfl, rfl, rfl⟩
theorem ret : Statement .ret := ⟨rfl, rfl, rfl⟩
theorem push (reg : Byte) : Statement (.push reg) := ⟨rfl, rfl, rfl⟩
theorem pop (reg : Byte) : Statement (.pop reg) := ⟨rfl, rfl, rfl⟩
theorem prn (reg : Byte) : Statement (.prn reg) := ⟨rfl, rfl, rfl⟩
theorem call (reg : Byte) : Statement (.call reg) := ⟨rfl, rfl, rfl⟩
theorem jmp (reg : Byte) : Statement (.jmp reg) := ⟨rfl, rfl, rfl⟩
theorem jeq (reg : Byte) : Statement (.jeq reg) := ⟨rfl, rfl, rfl⟩
theorem jne (reg : Byte) : Statement (.jne reg) := ⟨rfl, rfl, rfl⟩
theorem ldi (reg imm8 : Byte) : Statement (.ldi reg imm8) := ⟨rfl, rfl, rfl⟩
theorem add (regA regB : Byte) : Statement (.add regA regB) := ⟨rfl, rfl, rfl⟩
theorem mul (regA regB : Byte) : Statement (.mul regA regB) := ⟨rfl, rfl, rfl⟩
theorem cmp (regA regB : Byte) : Statement (.cmp regA regB) := ⟨rfl, rfl, rfl⟩

end Sys2Proof.Laws.EncodedHead
end

