-- ==== Sys2Proof/Tests/Slice0.lean ====
section
/-! SUPPORT. Tests. Expected results are from 95_test_vectors.md (the vector's id is in the comment) or worked by hand from
the rule named; none is the model's own answer. After them, a witness for the hypotheses of every statement that has
some. -/

namespace Sys2Proof.Tests

open Sys2Proof.Machine

/-! ### Decoding: every constructor from its word, bit by bit from 30_encoding.md R61, R66 -/

theorem test_decode_nop : decode 0b00000000#8 0xFF#8 0xFF#8 = .ok .nop := by decide
theorem test_decode_hlt : decode 0b00000001#8 0xFF#8 0xFF#8 = .ok .hlt := by decide
theorem test_decode_ret : decode 0b00010001#8 0xFF#8 0xFF#8 = .ok .ret := by decide
theorem test_decode_push : decode 0b01000101#8 0b00000011#8 0xFF#8 = .ok (.push 3#8) := by decide
theorem test_decode_pop : decode 0b01000110#8 0b00000011#8 0xFF#8 = .ok (.pop 3#8) := by decide
theorem test_decode_prn : decode 0b01000111#8 0b11001000#8 0xFF#8 = .ok (.prn 200#8) := by decide
theorem test_decode_call : decode 0b01010000#8 0b00000001#8 0xFF#8 = .ok (.call 1#8) := by decide
theorem test_decode_jmp : decode 0b01010100#8 0b00000011#8 0xFF#8 = .ok (.jmp 3#8) := by decide
theorem test_decode_jeq : decode 0b01010101#8 0b00000011#8 0xFF#8 = .ok (.jeq 3#8) := by decide
theorem test_decode_jne : decode 0b01010110#8 0b00000011#8 0xFF#8 = .ok (.jne 3#8) := by decide
theorem test_decode_ldi : decode 0b10000010#8 0b00000000#8 0b00001000#8 = .ok (.ldi 0#8 8#8) := by decide
theorem test_decode_add : decode 0b10100000#8 0b00000001#8 0b00000010#8 = .ok (.add 1#8 2#8) := by decide
theorem test_decode_mul : decode 0b10100010#8 0b00000001#8 0b00000010#8 = .ok (.mul 1#8 2#8) := by decide
theorem test_decode_cmp : decode 0b10100111#8 0b00000001#8 0b00000010#8 = .ok (.cmp 1#8 2#8) := by decide

/-- V-DEC1, V-DEC2: bytes outside the map. -/
theorem test_decode_illegal :
    decode 0x02#8 0#8 0#8 = .error (.illegalOpcode 0x02#8) ∧ decode 0xFF#8 0#8 0#8 = .error (.illegalOpcode 0xFF#8) := by
  decide

/-- 30_encoding.md R68: exactly the fourteen bytes written out in `isMappedOpcode` are opcodes. -/
theorem test_illegal_bytes : ∀ op : Byte, (Opcode.ofByte op).isNone = !isMappedOpcode op := by decide

theorem test_decode_truncated : decodeBytes [0x82#8, 0#8] = .error .truncated := by decide

/-- Program P1 of 95_test_vectors.md: its first two instructions, encoded. -/
theorem test_encode_p1 :
    encode (.ldi 0#8 8#8) ++ encode (.ldi 1#8 9#8) = [0x82#8, 0x00#8, 0x08#8, 0x82#8, 0x01#8, 0x09#8] := by decide

/-- bit 0 is the least significant bit of the first byte; the bits above nbits are 0 -/
theorem test_table_word :
    decodeTableWord 24 0x080082 = some (.ldi 0#8 8#8) ∧ decodeTableWord 16 0xFF0345 = some (.push 3#8) := by decide

/-! ### WellFormed: an ill-formed term for each check, refused -/

theorem test_wellFormed_refuses_one_operand :
    [Instr.push 8#8, .pop 8#8, .prn 200#8, .call 10#8, .jmp 8#8, .jeq 8#8, .jne 255#8, .ldi 8#8 1#8].all
      (fun i => !i.wellFormed) = true := by decide

theorem test_wellFormed_refuses_two_operands :
    [Instr.add 8#8 0#8, .add 0#8 9#8, .mul 8#8 0#8, .mul 0#8 255#8, .cmp 8#8 0#8, .cmp 0#8 8#8].all
      (fun i => !i.wellFormed) = true := by decide

theorem test_wellFormed_accepts :
    [Instr.nop, .hlt, .ret, .push 7#8, .ldi 7#8 255#8, .cmp 7#8 7#8].all (fun i => i.wellFormed) = true := by decide

/-! ### One step on a small state -/

/-- A reset state at pc, with register a holding u, register b holding v, and bytes laid from pc. -/
def start (pc : Nat) (a : Fin 8) (u : Byte) (b : Fin 8) (v : Byte) (bytes : List Byte) : State :=
  { (State.reset.setReg a u).setReg b v with pc := pc, mem := Memory.writeList [] pc bytes }

/-- The next state of an outcome. -/
def after : Host.Outcome State Fault Refusal → State
  | .next t => t
  | .fault _ => State.reset
  | .refused _ => State.reset

/-- Whether an outcome is a next state. -/
def isNext : Host.Outcome State Fault Refusal → Bool
  | .next _ => true
  | .fault _ => false
  | .refused _ => false

/-- An outcome that is a next state is the one `after` takes out. -/
theorem eq_next_after {o : Host.Outcome State Fault Refusal} (h : isNext o = true) : o = .next (after o) := by
  cases o with
  | next t => rfl
  | fault r => cases h
  | refused r => cases h

/-- V-ADD1 -/
theorem test_add_wraps : let t := after (step (start 0 0 250#8 1 10#8 [0xA0#8, 0#8, 1#8]))
    t.reg 0 = 4#8 ∧ t.pc = 3 ∧ t.fl = .none := by decide
/-- V-ADD10: operand_a is checked first. -/
theorem test_add_both_bad : (after (step (start 0 0 0#8 1 0#8 [0xA0#8, 8#8, 9#8]))).run =
    .faulted (.boundsViolation .reg 8 0) := by decide
/-- V-MUL3 -/
theorem test_mul_low_byte : (after (step (start 0 0 255#8 1 255#8 [0xA2#8, 0#8, 1#8]))).reg 0 = 1#8 := by decide
/-- V-MUL6: a source that is also the destination. -/
theorem test_mul_square : (after (step (start 0 2 12#8 3 0#8 [0xA2#8, 2#8, 2#8]))).reg 2 = 144#8 := by decide
/-- V-CMP4: unsigned. -/
theorem test_cmp_unsigned : (after (step (start 0 0 0#8 1 255#8 [0xA7#8, 0#8, 1#8]))).fl = .lessThan := by decide
/-- V-CMP7: replaced. -/
theorem test_cmp_replaces :
    (after (step { start 0 0 0#8 1 0#8 [0xA7#8, 0#8, 1#8] with fl := .greaterThan })).fl = .equal := by decide
/-- V-NOP2 -/
theorem test_nop_at_253 : (after (step (start 253 0 0#8 1 0#8 [0#8]))).pc = 254 := by decide
/-- V-NOP3 -/
theorem test_nop_at_254 : let t := after (step (start 254 0 0#8 1 0#8 [0#8]))
    t.run = .faulted (.boundsViolation .mem 256 254) ∧ t.pc = 254 := by decide
/-- V-LDI2, V-LDI3 -/
theorem test_ldi_sp : (after (step (start 0 0 0#8 1 0#8 [0x82#8, 7#8, 0#8]))).sp = 0#8 := by decide
/-- V-LDI4 -/
theorem test_ldi_bad : (after (step (start 0 0 0#8 1 0#8 [0x82#8, 8#8, 1#8]))).run =
    .faulted (.boundsViolation .reg 8 0) := by decide
/-- V-PRN2 -/
theorem test_prn_sp : (after (step (start 0 0 0#8 1 0#8 [0x47#8, 7#8]))).out = [244#8] := by decide
/-- V-PRN3 -/
theorem test_prn_bad : let t := after (step (start 0 0 0#8 1 0#8 [0x47#8, 0xC8#8]))
    t.run = .faulted (.boundsViolation .reg 200 0) ∧ t.out = [] := by decide
/-- V-PUSH2: PUSH R7 stores the decremented SP. -/
theorem test_push_sp : let t := after (step (start 0 0 0#8 1 0#8 [0x45#8, 7#8]))
    t.sp = 0xF3#8 ∧ t.mem.read 0xF3 = 0xF3#8 := by decide
/-- V-PUSH4 -/
theorem test_push_at_zero : let t := after (step (start 0 7 0#8 1 0#8 [0x45#8, 0#8]))
    t.run = .faulted (.boundsViolation .mem (-1) 0) ∧ t.sp = 0#8 := by decide
/-- V-POP4: POP R7 leaves the popped byte plus 1. -/
theorem test_pop_sp : (after (step (start 0x0E 7 0x10#8 1 0#8 [0x46#8, 7#8, 0x20#8]))).sp = 0x21#8 := by decide
/-- 42_straight_line.md R124, R125 by hand: after PUSH R7 at SP 0xF4 the byte 0xF3 is on top, and POP R7 leaves 0xF4. -/
theorem test_pop_sp_after_push_sp :
    (after (step (start 0xF1 7 0xF3#8 1 0#8 [0x46#8, 7#8, 0xF3#8]))).sp = 0xF4#8 := by decide
/-- V-POP3 -/
theorem test_pop_at_255 : let t := after (step (start 0 7 255#8 1 0#8 [0x46#8, 0#8]))
    t.run = .faulted (.boundsViolation .mem 256 0) ∧ t.sp = 255#8 := by decide
/-- V-CALL1 -/
theorem test_call : let t := after (step (start 6 1 11#8 2 0#8 [0x50#8, 1#8]))
    t.mem.read 0xF3 = 8#8 ∧ t.sp = 0xF3#8 ∧ t.pc = 11 := by decide
/-- V-CALL2 -/
theorem test_call_sp : (after (step (start 0 0 0#8 1 0#8 [0x50#8, 7#8]))).pc = 0xF3 := by decide
/-- V-RET1: the byte at SP = 0x10 is 8, just after the RET. -/
theorem test_ret : let t := after (step (start 14 7 0x10#8 1 0#8 [0x11#8, 0xFF#8, 8#8]))
    t.pc = 8 ∧ t.sp = 0x11#8 := by decide
/-- V-RET3 -/
theorem test_ret_at_255 : (after (step (start 0 7 255#8 1 0#8 [0x11#8]))).run =
    .faulted (.boundsViolation .mem 256 0) := by decide
/-- V-JMP1 -/
theorem test_jmp : (after (step (start 20 3 12#8 1 0#8 [0x54#8, 3#8]))).pc = 12 := by decide
/-- V-JEQ1 -/
theorem test_jeq_taken : (after (step { start 18 3 22#8 1 0#8 [0x55#8, 3#8] with fl := .equal })).pc = 22 := by decide
/-- V-JEQ4 -/
theorem test_jeq_none : (after (step (start 18 3 22#8 1 0#8 [0x55#8, 3#8]))).pc = 20 := by decide
/-- V-JNE4 -/
theorem test_jne_none : (after (step (start 20 3 12#8 1 0#8 [0x56#8, 3#8]))).pc = 12 := by decide
/-- V-JNE5: the operand is checked though the jump is not taken. -/
theorem test_jne_untaken_bad : (after (step { start 0 3 12#8 1 0#8 [0x56#8, 0xFF#8] with fl := .equal })).run =
    .faulted (.boundsViolation .reg 255 0) := by decide
/-- V-HLT2 -/
theorem test_hlt : let t := after (step (start 253 0 0#8 1 0#8 [1#8]))
    t.run = .halted ∧ t.pc = 253 ∧ t.ir = 1#8 := by decide
/-- V-HLT4 -/
theorem test_hlt_at_255 : (after (step (start 255 0 0#8 1 0#8 [1#8]))).run =
    .faulted (.boundsViolation .mem 256 255) := by decide
/-- V-FET1 -/
theorem test_fetch_at_256 : let t := after (step { start 0 0 0#8 1 0#8 [] with pc := 256, ir := 7#8 })
    t.run = .faulted (.boundsViolation .mem 256 256) ∧ t.ir = 7#8 := by decide
/-- V-DEC1 -/
theorem test_decode_failure : let t := after (step (start 24 0 0#8 1 0#8 [2#8]))
    t.run = .faulted (.decodeFailure 2#8 24) ∧ t.ir = 2#8 ∧ t.pc = 24 := by decide
/-- 60_exceptions.md R180: the codes. -/
theorem test_fault_codes : [FaultRecord.boundsViolation .mem 256 0, .decodeFailure 2#8 0, .internalInvariantViolation 0].map
    FaultRecord.code = [1, 2, 3] := by decide
/-- 41_alu.md R106: the ALU given another operation. -/
theorem test_alu_other_operation : alu .jmp 1#8 2#8 = .error .internalInvariantViolation := by decide
/-- Storing the reset byte removes the cell, so equal memories are equal data. -/
theorem test_memory_canonical : (((Memory.write [] 9 1#8).write 3 2#8).write 9 0#8) = [(3, 2#8)] := by decide

/-! ### Witnesses: for each statement with hypotheses, states and operands that meet them all -/

theorem witness_EveryStepKeepsTheInvariant :
    State.reset.Inv ∧ step State.reset = .next (after (step State.reset)) :=
  ⟨⟨rfl, by decide, fun _ h => nomatch h⟩, eq_next_after (by decide)⟩

theorem witness_DecodedBytesAreTheEncoding :
    decodeBytes [0x82#8, 0#8, 8#8, 1#8] = .ok (.ldi 0#8 8#8, [1#8]) := by decide

theorem witness_OpcodeByteSelectsTheInstruction : isMappedOpcode 0x02#8 = false ∧ isMappedOpcode 0xFF#8 = false := by decide

theorem witness_LengthIsTheFallThroughAdvance_jumps :
    let s := start 0 0 0#8 1 0#8 []
    (∃ t, exec (.jeq 0#8) s = .next t ∧ t.run = .running ∧ s.fl ≠ .equal) ∧
    (∃ t, exec (.jne 0#8) { s with fl := .equal } = .next t ∧ t.run = .running) ∧
    ∃ t, exec (.add 0#8 7#8) s = .next t ∧ t.run = .running :=
  ⟨⟨_, rfl, rfl, by decide⟩, ⟨_, rfl, rfl⟩, ⟨_, rfl, rfl⟩⟩

theorem witness_LengthIsTheFallThroughAdvance_call :
    let s := start 253 7 1#8 1 0#8 []
    s.mem.wf = true ∧ s.pc ≤ 253 ∧ ∃ t, exec (.call 1#8) s = .next t ∧ t.run = .running :=
  ⟨rfl, by decide, _, rfl, rfl⟩

theorem witness_StepRunsTheDecodedInstruction :
    let s := start 253 0 0#8 1 0#8 [0xA0#8, 0#8, 1#8]
    s.run = .running ∧ s.pc ≤ 253 ∧
      decode (s.mem.read s.pc) (s.mem.read (s.pc + 1)) (s.mem.read (s.pc + 2)) = .ok (.add 0#8 1#8) := by decide

theorem witness_FetchPastTheTopFaults : State.reset.run = .running ∧
    (start 254 0 0#8 1 0#8 []).pc = 254 ∧ (start 255 0 0#8 1 0#8 []).pc = 255 ∧ 256 ≤ (start 256 0 0#8 1 0#8 []).pc := by
  decide

theorem witness_UnmappedOpcodeTakesDecodeFailure :
    let s := start 253 0 0#8 1 0#8 [0xFF#8]
    s.run = .running ∧ s.pc ≤ 253 ∧ isMappedOpcode (s.mem.read s.pc) = false := by decide

theorem witness_StepIsEnabledExactlyInRunning :
    State.reset.run = .running ∧ State.reset.halt.run = .halted ∧
      (State.reset.faultedWith (.decodeFailure 2#8 0)).run = .faulted (.decodeFailure 2#8 0) := by decide

theorem witness_IrHoldsTheOpcodeAndIsNeverRead :
    let s := start 255 0 0#8 1 0#8 [0x11#8]
    step s = .next (after (step s)) ∧ s.pc ≤ 255 := ⟨eq_next_after (by decide), by decide⟩

theorem witness_LatchesAreNeverRead : step State.reset = .next (after (step State.reset)) :=
  eq_next_after (by decide)

theorem witness_OnlyCmpWritesFlAndOnlyJumpsReadIt :
    (∀ a b, Instr.jeq 0#8 ≠ .cmp a b) ∧ (∃ t, exec (.jeq 0#8) State.reset = .next t) ∧
      (∀ r, Instr.pop 0#8 ≠ .jeq r ∧ Instr.pop 0#8 ≠ .jne r) ∧ ∃ t, exec (.pop 0#8) State.reset = .next t :=
  ⟨fun _ _ h => (nomatch h), ⟨_, rfl⟩, fun _ => ⟨fun h => (nomatch h), fun h => (nomatch h)⟩, ⟨_, rfl⟩⟩

theorem witness_NopOnlyAdvancesThePc :
    let s := start 253 0 0#8 1 0#8 [0#8, 0x11#8, 0x11#8]
    s.run = .running ∧ s.pc ≤ 253 ∧ s.mem.read s.pc = 0x00#8 := by decide

theorem witness_HltHaltsAtItsOwnAddress :
    let s := start 253 0 0#8 1 0#8 [1#8]
    s.run = .running ∧ s.pc ≤ 253 ∧ s.mem.read s.pc = 0x01#8 := by decide

theorem witness_LdiLoadsTheByteAtPcPlus2 :
    let s := start 253 0 0#8 1 0#8 [0x82#8, 7#8, 255#8]
    s.run = .running ∧ s.pc ≤ 253 ∧ s.mem.read s.pc = 0x82#8 ∧ s.mem.read (s.pc + 1) = regByte 7 := by decide

theorem witness_OutputGrowsOnlyByPrn :
    let s := start 253 0 0#8 1 0#8 [0x47#8, 7#8]
    step s = .next (after (step s)) ∧ step State.reset = .next (after (step State.reset)) :=
  ⟨eq_next_after (by decide), eq_next_after (by decide)⟩

theorem witness_PushStoresBelowTheOldStackPointer :
    let s := start 0 7 1#8 0 0x55#8 []
    s.mem.wf = true ∧ s.sp ≠ 0x00#8 := by decide

theorem witness_PopLoadsTheTopOfTheStack :
    let s := start 0xFE 7 0xFE#8 0 0#8 [0xFE#8]
    (0 : Fin 8) ≠ 7 ∧ s.sp ≠ 0xFF#8 ∧ s.mem.read s.sp.toNat ≠ 0xFF#8 := by decide

theorem witness_CallPushesTheReturnAddressAndJumps :
    let s := start 253 7 1#8 0 0#8 []
    s.mem.wf = true ∧ s.pc ≤ 253 ∧ s.sp ≠ 0x00#8 := by decide

theorem witness_RetPopsThePc : (start 0 7 0xFE#8 0 0#8 []).sp ≠ 0xFF#8 := by decide

theorem witness_RegisterJumpsFollowFl :
    ({ State.reset with fl := .equal } : State).fl = .equal ∧ State.reset.fl ≠ .equal := by decide

theorem witness_NextPcFollowsTheTable : State.reset.run = .running ∧
    (∃ t, exec .nop State.reset = .next t ∧ t.run = .running) ∧ ∃ t, exec .hlt State.reset = .next t ∧ t.run = .halted :=
  ⟨rfl, ⟨_, rfl, rfl⟩, ⟨_, rfl, rfl⟩⟩

theorem witness_RegisterOperandAboveSevenFaults :
    7 < (8#8 : Byte).toNat ∧ 7 < (255#8 : Byte).toNat ∧ (7#8 : Byte).toNat ≤ 7 := by decide

theorem witness_RegisterFaultExactlyWhenIllFormed : State.reset.run = .running ∧
    (∃ t, exec (.add 7#8 8#8) State.reset = .next t ∧ Instr.wellFormed (.add 7#8 8#8) = false) ∧
    ∃ t, exec (.add 7#8 7#8) State.reset = .next t ∧ Instr.wellFormed (.add 7#8 7#8) = true :=
  ⟨rfl, ⟨_, rfl, rfl⟩, ⟨_, rfl, rfl⟩⟩

theorem witness_StackPointerLeavingTheRangeFaults :
    (start 0 7 0#8 0 0#8 []).sp = 0x00#8 ∧ (start 0 7 255#8 0 0#8 []).sp = 0xFF#8 ∧ (0 : Fin 8) ≠ 7 ∧
      (let s := start 16 7 16#8 0 0#8 [0xFF#8]; s.mem.read s.sp.toNat = 0xFF#8) := by decide

theorem witness_FaultsArePrecise :
    let s := start 255 0 0#8 1 0#8 [1#8]
    step s = .next (after (step s)) ∧ (after (step s)).run = .faulted (.boundsViolation .mem 256 255) :=
  ⟨eq_next_after (by decide), by decide⟩

theorem witness_NoStepRaisesInternalInvariantViolation : step State.reset = .next (after (step State.reset)) :=
  eq_next_after (by decide)

theorem witness_OnlyNamedRegistersChange :
    ∃ t, exec (.ldi 3#8 9#8) State.reset = .next t ∧ t.reg 3 ≠ State.reset.reg 3 := ⟨_, rfl, by decide⟩

theorem witness_OnlyPushAndCallWriteMemory :
    let s := start 253 0 9#8 1 0#8 [0x45#8, 0#8]
    s.mem.wf = true ∧ step s = .next (after (step s)) ∧ (after (step s)).mem ≠ s.mem := 
  ⟨by decide, eq_next_after (by decide), by decide⟩

theorem witness_MemoryAccessIsOneByteInBounds : State.reset.mem.wf = true ∧
    (0 : Int) ≤ 0 ∧ (0 : Int) ≤ 255 ∧ (255 : Int) ≤ 255 ∧ (-1 : Int) < 0 ∧ (255 : Int) < 256 := by decide

theorem witness_PopAfterPushRestores :
    let s := start 0 7 1#8 6 0x55#8 []
    s.mem.wf = true ∧ (6 : Fin 8) ≠ 7 ∧ s.sp ≠ 0x00#8 ∧
      (let t := after (exec (.push 6#8) s); let u := { t with regs := t.regs.set 6 0#8 }
       u.sp = t.sp ∧ u.mem.read t.sp.toNat = t.mem.read t.sp.toNat) := by decide

theorem witness_PopR7AfterPushR7RestoresSp :
    let s := start 0 7 1#8 6 0x55#8 []
    s.mem.wf = true ∧ s.sp ≠ 0x00#8 ∧
      (let t := after (exec (.push 7#8) s); let u := { t with fl := .equal }
       u.sp = t.sp ∧ u.mem.read t.sp.toNat = t.mem.read t.sp.toNat) := by decide

theorem witness_RetAfterCallResumes :
    let s := start 253 7 1#8 6 0x55#8 []
    s.mem.wf = true ∧ s.pc ≤ 253 ∧ s.sp ≠ 0x00#8 ∧
      (let t := after (exec (.call 6#8) s); let u := { t with fl := .equal }
       u.sp = t.sp ∧ u.mem.read t.sp.toNat = t.mem.read t.sp.toNat) := by decide

/-- V-PUSH and program P6 of 95_test_vectors.md in small: the slot is the next opcode byte. -/
theorem witness_APushedByteIsTheNextOpcode :
    let s := start 251 7 254#8 0 1#8 [0x45#8, 0#8]
    s.mem.wf = true ∧ s.run = .running ∧ (0 : Fin 8) ≠ 7 ∧ s.mem.read s.pc = 0x45#8 ∧
      s.mem.read (s.pc + 1) = regByte 0 ∧ s.pc ≤ 251 ∧ s.sp ≠ 0x00#8 ∧ (s.sp - 1#8).toNat = s.pc + 2 := by decide

theorem witness_ZeroMemoryRunsNopsAndFaultsAt254 :
    State.reset.run = .running ∧ (∀ a : Nat, State.reset.mem.read a = 0x00#8) ∧
      State.reset.pc + (253 + 1) ≤ 254 ∧ State.reset.pc + 254 = 254 :=
  ⟨rfl, fun _ => rfl, by decide, by decide⟩

theorem witness_LoadPlacesTheImageAtZero : State.reset.mem = [] ∧
    (List.replicate 256 (0xFF#8 : Byte)).length ≤ 256 ∧ 256 < (List.replicate 257 (0xFF#8 : Byte)).length :=
  ⟨rfl, le_of_eq List.length_replicate, by rw [List.length_replicate]; decide⟩

theorem witness_HostTransactionsComeInOrder :
    (⟨.loaded, State.reset⟩ : Session).phase ≠ .afterReset ∧ (⟨.afterReset, State.reset⟩ : Session).phase ≠ .loaded ∧
      (⟨.loaded, State.reset⟩ : Session).phase ≠ .started ∧ ([] : List Byte).length ≤ 256 := by decide

/-- 70_reset_and_hazards.md R204 by hand: a core halted at 5 gives its pc and the outcome halted, a RUNNING one nothing. -/
theorem test_final_state :
    (({ State.reset with run := .halted, pc := 5 } : State).final.map fun f => (f.pc, f.outcome)) = some (5, .halted) ∧
      State.reset.final = none := by decide

theorem witness_HostLearnsNothingOfTheLatches :
    ∃ t, Sys2Proof.core.run 1 State.reset = .next t ∧ t.pc = 1 := ⟨_, rfl, by decide⟩

end Sys2Proof.Tests
end

/-! SUPPORT. The statements of 10_state.md: what is read of IR and FL, and the next pc. -/

namespace Sys2Proof.Machine

/-! ### IR and FL written into the state before an instruction -/

/-- The state with IR and FL replaced, the two fields whose only readers the statements name. -/
def State.withIrFl (s : State) (op : Byte) (f : Flag) : State := { s with ir := op, fl := f }

@[simp] theorem State.withIrFl_ir (s : State) (op : Byte) (f : Flag) : (s.withIrFl op f).ir = op := rfl
@[simp] theorem State.withIrFl_fl (s : State) (op : Byte) (f : Flag) : (s.withIrFl op f).fl = f := rfl
@[simp] theorem State.withIrFl_mem (s : State) (op : Byte) (f : Flag) : (s.withIrFl op f).mem = s.mem := rfl
@[simp] theorem State.sp_withIrFl (s : State) (op : Byte) (f : Flag) : (s.withIrFl op f).sp = s.sp := rfl
@[simp] theorem State.latch_withIrFl (s : State) (op : Byte) (f : Flag) (addr : Int) (v : Byte) :
    (s.withIrFl op f).latch addr v = (s.latch addr v).withIrFl op f := rfl
@[simp] theorem State.setReg_withIrFl (s : State) (op : Byte) (f : Flag) (r : Fin 8) (v : Byte) :
    (s.withIrFl op f).setReg r v = (s.setReg r v).withIrFl op f := rfl

/-- An instruction's end with IR and FL replaced before and after it: its result, or its fault. -/
theorem settle_withIrFl {s t : State} {x x' : Except FaultCause State} {op : Byte} {f : Flag}
    (h : settle s x = .next t) (hx : x' = x.map fun u => u.withIrFl op f) :
    settle (s.withIrFl op f) x' = .next (t.withIrFl op f) := by
  subst hx
  rcases settle_cases h with rfl | ⟨c, rfl, rfl⟩ <;> rfl

theorem State.decSp_withIrFl (s : State) (op : Byte) (f : Flag) :
    (s.withIrFl op f).decSp = s.decSp.map fun u => u.withIrFl op f := by
  unfold State.decSp
  rw [State.sp_withIrFl]
  cases stackAddr ((s.sp.toNat : Int) - 1) <;> rfl

theorem State.incSp_withIrFl (s : State) (op : Byte) (f : Flag) :
    (s.withIrFl op f).incSp = s.incSp.map fun u => u.withIrFl op f := by
  unfold State.incSp
  rw [State.sp_withIrFl]
  cases stackAddr ((s.sp.toNat : Int) + 1) <;> rfl

/-- A register jump whose condition is already computed reads neither IR nor FL. -/
theorem execJumpIf_withIrFl {taken : Bool} {reg : Byte} {s t : State} {op : Byte} {f : Flag}
    (h : execJumpIf taken reg s = .next t) :
    execJumpIf taken reg (s.withIrFl op f) = .next (t.withIrFl op f) :=
  settle_withIrFl h (by cases regIdx reg <;> cases taken <;> rfl)

/-- An ALU instruction that gives a value reads neither IR nor FL. -/
theorem execAlu_value_withIrFl {o : Opcode} {g : Byte → Byte → Byte} (ho : ∀ u v, alu o u v = .ok (.value (g u v)))
    {regA regB : Byte} {s t : State} {op : Byte} {f : Flag} (h : execAlu o regA regB s = .next t) :
    execAlu o regA regB (s.withIrFl op f) = .next (t.withIrFl op f) :=
  settle_withIrFl h (by cases regIdx regA <;> cases regIdx regB <;> simp [ho] <;> rfl)

/-- CMP on registers that exist replaces FL wholly, whatever it was (41_alu.md R104). -/
theorem execCmp_withIrFl_reg (a b : Fin 8) (s : State) (op : Byte) (f : Flag) :
    execCmp (regByte a) (regByte b) (s.withIrFl op f) = execCmp (regByte a) (regByte b) (s.setIr op) := by
  rw [execCmp, execCmp, execAlu_regs, execAlu_regs]
  rfl

/-- CMP reads neither IR nor FL; it leaves its own flag, or the old one when it faults. -/
theorem execCmp_withIrFl {regA regB : Byte} {s t : State} {op : Byte} {f : Flag}
    (h : execCmp regA regB s = .next t) :
    ∃ g, execCmp regA regB (s.withIrFl op f) = .next (t.withIrFl op g) := by
  rcases execAlu_cases (f := fun u v => .flag (compareFlag u v)) (fun _ _ => rfl) h with
    ⟨a, b, rfl, rfl, rfl⟩ | ⟨ha, rfl⟩ | ⟨a, rfl, hb, rfl⟩
  · refine ⟨compareFlag (s.reg a) (s.reg b), ?_⟩
    rw [execCmp, execAlu_regs]
    rfl
  · exact ⟨f, execAlu_badA .cmp ha regB _⟩
  · exact ⟨f, execAlu_badB .cmp a hb _⟩

/-- NO INSTRUCTION READS IR, AND ONLY JEQ AND JNE READ FL: with both replaced before an instruction (FL by itself, for
those two) its result is the same but for them; it keeps the IR it is given and, CMP apart, the FL
(10_state.md R18, R20). -/
theorem exec_withIrFl {i : Instr} {s t : State} (op : Byte) {f : Flag}
    (hf : f = s.fl ∨ ∀ r, i ≠ .jeq r ∧ i ≠ .jne r) (h : exec i s = .next t) :
    ∃ g, exec i (s.withIrFl op f) = .next (t.withIrFl op g) ∧ ((∀ a b, i ≠ .cmp a b) → g = f) := by
  cases i with
  | nop => exact ⟨f, settle_withIrFl (s := s) (x := .ok (s.advancePc 1)) h rfl, fun _ => rfl⟩
  | hlt => exact ⟨f, settle_withIrFl (s := s) (x := .ok s.halt) h rfl, fun _ => rfl⟩
  | ret =>
    simp only [exec, execRet, State.readTop_eq, except_ok_bind, State.sp_withIrFl, State.withIrFl_mem,
      State.latch_withIrFl, State.incSp_withIrFl] at h ⊢
    refine ⟨f, settle_withIrFl h ?_, fun _ => rfl⟩
    cases (s.latch s.sp.toNat (s.mem.read s.sp.toNat)).incSp <;> rfl
  | push reg =>
    refine ⟨f, settle_withIrFl h ?_, fun _ => rfl⟩
    rw [State.decSp_withIrFl]
    cases regIdx reg with
    | error c => rfl
    | ok r => cases s.decSp <;> simp <;> rfl
  | pop reg =>
    simp only [exec, execPop, State.readTop_eq, except_ok_bind, State.sp_withIrFl, State.withIrFl_mem,
      State.latch_withIrFl, State.setReg_withIrFl, State.incSp_withIrFl] at h ⊢
    refine ⟨f, settle_withIrFl h ?_, fun _ => rfl⟩
    cases regIdx reg with
    | error c => rfl
    | ok r =>
      simp only [except_ok_bind]
      cases ((s.latch s.sp.toNat (s.mem.read s.sp.toNat)).setReg r (s.mem.read s.sp.toNat)).incSp <;> rfl
  | call reg =>
    refine ⟨f, settle_withIrFl h ?_, fun _ => rfl⟩
    rw [State.decSp_withIrFl]
    cases regIdx reg with
    | error c => rfl
    | ok r => cases s.decSp <;> simp <;> rfl
  | prn reg => exact ⟨f, settle_withIrFl h (by cases regIdx reg <;> rfl), fun _ => rfl⟩
  | jmp reg => exact ⟨f, execJumpIf_withIrFl h, fun _ => rfl⟩
  | jeq reg =>
    obtain rfl := hf.resolve_right fun hn => (hn reg).1 rfl
    exact ⟨s.fl, execJumpIf_withIrFl h, fun _ => rfl⟩
  | jne reg =>
    obtain rfl := hf.resolve_right fun hn => (hn reg).2 rfl
    exact ⟨s.fl, execJumpIf_withIrFl h, fun _ => rfl⟩
  | ldi reg imm => exact ⟨f, settle_withIrFl h (by cases regIdx reg <;> rfl), fun _ => rfl⟩
  | add regA regB => exact ⟨f, execAlu_value_withIrFl (fun _ _ => rfl) h, fun _ => rfl⟩
  | mul regA regB => exact ⟨f, execAlu_value_withIrFl (fun _ _ => rfl) h, fun _ => rfl⟩
  | cmp regA regB =>
    obtain ⟨g, hg⟩ := execCmp_withIrFl (op := op) (f := f) h
    exact ⟨g, hg, fun hn => absurd rfl (hn regA regB)⟩

/-- An instruction keeps IR. -/
theorem exec_ir {i : Instr} {s t : State} (h : exec i s = .next t) : t.ir = s.ir := by
  obtain ⟨g, hg, -⟩ := exec_withIrFl s.ir (.inl rfl) h
  have ht : t = t.withIrFl s.ir g := Host.Outcome.next.inj (h.symm.trans hg)
  rw [ht, State.withIrFl_ir]

/-- An instruction other than CMP keeps FL. -/
theorem exec_fl {i : Instr} {s t : State} (hi : ∀ a b, i ≠ .cmp a b) (h : exec i s = .next t) : t.fl = s.fl := by
  obtain ⟨g, hg, hgf⟩ := exec_withIrFl s.ir (.inl rfl) h
  have ht : t = t.withIrFl s.ir g := Host.Outcome.next.inj (h.symm.trans hg)
  rw [ht, State.withIrFl_fl, hgf hi]

/-- Settles O20: a flag written before the instruction comes out again, unless CMP replaces it or JEQ or JNE reads it. -/
theorem onlyCmpWritesFlAndOnlyJumpsReadIt : Obligations.OnlyCmpWritesFlAndOnlyJumpsReadIt := by
  refine ⟨fun i s t hi h => exec_fl hi h, fun a b s f => execCmp_withIrFl_reg a b s s.ir f, fun i s t f hi h => ?_⟩
  obtain ⟨g, hg, -⟩ := exec_withIrFl s.ir (f := f) (.inr hi) h
  exact ⟨g, .of_next hg (by rw [← exec_ir h]; rfl)⟩

/-! ### The fetch and IR -/

/-- A fetch that reads the opcode overwrites IR and the latches, so it goes the same whatever they held. -/
theorem fetch_overwrites {s : State} (h : s.pc ≤ 255) (op mar mdr : Byte) :
    fetch { s with ir := op, mar := mar, mdr := mdr } = fetch s := by
  have h0 : (0 : Int) ≤ s.pc := Int.natCast_nonneg _
  have h1 : (s.pc : Int) < 256 := by omega
  rw [fetch, fetch, State.reading_of_range _ _ h0 h1, State.reading_of_range _ _ h0 h1]
  rfl

/-- A step that reads the opcode goes the same whatever IR and the latches held. -/
theorem step_overwrites {s : State} (h : s.pc ≤ 255) (op mar mdr : Byte) :
    step { s with ir := op, mar := mar, mdr := mdr } = step s := by
  simp only [step, cycle, runCycle, fetch_overwrites h]

/-- After a step that reads the opcode, IR holds it (10_state.md R18, 40_execution_loop.md R82). -/
theorem step_ir {s t : State} (h : step s = .next t) (hp : s.pc ≤ 255) : t.ir = s.mem.read s.pc := by
  obtain ⟨-, ⟨hge, -⟩ | ⟨mar, mdr, s1, rfl, hs⟩⟩ := step_cases h
  · omega
  · obtain ⟨-, rfl⟩ | ⟨-, -, rfl⟩ | ⟨-, o, -, hx⟩ := hs
    · rfl
    · rfl
    · exact exec_ir hx

/-- From 256 up the step is the opcode fetch's fault and nothing else. -/
theorem step_of_ge {s : State} (hr : s.run = .running) (h : 256 ≤ s.pc) :
    step s = .next (s.faultedWith (.boundsViolation .mem s.pc s.pc)) := by
  simp [step, cycle, hr, runCycle, fetch_of_ge h, afterFetch, FaultCause.record]

/-- Settles O15: the opcode fetch overwrites IR before anything could read it, and a step that fetches no opcode only
takes its fault. -/
theorem irHoldsTheOpcodeAndIsNeverRead : Obligations.IrHoldsTheOpcodeAndIsNeverRead := by
  refine ⟨rfl, fun s t h => ⟨step_ir h, fun x => ?_⟩⟩
  by_cases hp : s.pc ≤ 255
  · exact ⟨t.ir, .of_next ((step_overwrites hp x s.mar s.mdr).trans h) rfl⟩
  · obtain ⟨hr, -⟩ := step_cases h
    rw [step_of_ge hr (by omega), Host.Outcome.next.injEq] at h
    subst h
    exact ⟨x, .of_next (step_of_ge (s := { s with ir := x }) hr (Nat.lt_of_not_le hp)) rfl⟩

/-! ### The next pc -/

/-- The return address fits a byte where a CALL can execute (43_control_flow.md R152). -/
theorem State.returnAddr_toNat {s : State} (h : s.pc ≤ 253) : s.returnAddr.toNat = s.pc + 2 := by
  rw [State.returnAddr, BitVec.toNat_ofNat]
  omega

@[simp] theorem State.putAlu_pc (s : State) (a : Fin 8) (x : AluResult) : (s.putAlu a x).pc = s.pc := by
  cases x <;> rfl

/-- An ALU instruction that does not fault advances the pc by 3. -/
theorem execAlu_pc {o : Opcode} {regA regB : Byte} {s t : State} {f : Byte → Byte → AluResult}
    (ho : ∀ u v, alu o u v = .ok (f u v)) (h : execAlu o regA regB s = .next t)
    (completes : ∀ r, t ≠ s.faultedWith r) : t.pc = s.pc + 3 := by
  obtain ⟨a, b, -, -, rfl⟩ | ⟨-, ht⟩ | ⟨a, -, -, ht⟩ := execAlu_cases ho h
  · rw [State.advancePc_pc, State.putAlu_pc]
  · exact absurd ht (completes _)
  · exact absurd ht (completes _)

/-- A CALL that does not fault leaves its return address at the new SP (43_control_flow.md R151, R152). -/
theorem execCall_top {reg : Byte} {s t : State} (h : execCall reg s = .next t)
    (completes : ∀ r, t ≠ s.faultedWith r) (hm : s.mem.wf = true) (hp : s.pc ≤ 253) :
    (t.mem.read t.sp.toNat).toNat = s.pc + 2 := by
  obtain ⟨r, -, -, ht⟩ | ⟨-, ht⟩ | ⟨r, -, -, ht⟩ := execCall_cases h
  · have hsp : t.sp = s.sp - 1#8 := by rw [ht]; exact State.sp_setSp s _
    have hmem : t.mem = s.mem.write (s.sp - 1#8).toNat s.returnAddr := by rw [ht]; rfl
    rw [hsp, hmem, Memory.read_write hm, if_pos rfl, State.returnAddr_toNat hp]
  · exact absurd ht (completes _)
  · exact absurd ht (completes _)

/-- Settles O31, by the instruction: each result's pc is read off it, and a fault is not a completion. -/
theorem nextPcFollowsTheTable : Obligations.NextPcFollowsTheTable := by
  intro i s t h hrun _
  have completes : ∀ r, t ≠ s.faultedWith r := by
    rintro r rfl
    simp at hrun
  cases i with
  | nop =>
    obtain rfl : s.advancePc 1 = t := Host.Outcome.next.inj h
    rfl
  | hlt =>
    obtain rfl : s.halt = t := Host.Outcome.next.inj h
    rfl
  | ret =>
    obtain ⟨-, rfl⟩ | ⟨-, ht⟩ := execRet_cases h
    · rfl
    · exact absurd ht (completes _)
  | push reg =>
    obtain ⟨r, v, -, -, -, rfl⟩ | ⟨-, ht⟩ | ⟨r, -, -, ht⟩ := execPush_cases h
    · rfl
    · exact absurd ht (completes _)
    · exact absurd ht (completes _)
  | pop reg =>
    obtain ⟨r, u, -, rfl, ⟨-, rfl⟩ | ⟨-, ht⟩⟩ | ⟨-, ht⟩ := execPop_cases h
    · rfl
    · exact absurd ht (completes _)
    · exact absurd ht (completes _)
  | prn reg =>
    obtain ⟨r, -, rfl⟩ | ⟨-, ht⟩ := execPrn_cases h
    · rfl
    · exact absurd ht (completes _)
  | call reg =>
    obtain ⟨r, hreg, -, rfl⟩ | ⟨-, ht⟩ | ⟨r, -, -, ht⟩ := execCall_cases h
    · refine ⟨r, hreg, fun hr => ?_, execCall_top h completes⟩
      rw [State.jumpTo_pc, State.reg_setSp, if_neg hr]
    · exact absurd ht (completes _)
    · exact absurd ht (completes _)
  | jmp reg =>
    obtain ⟨r, hreg, rfl⟩ | ⟨-, ht⟩ := execJumpIf_cases h
    · exact ⟨r, hreg, rfl⟩
    · exact absurd ht (completes _)
  | jeq reg =>
    obtain ⟨r, hreg, rfl⟩ | ⟨-, ht⟩ := execJumpIf_cases h
    · exact ⟨r, hreg, by cases s.fl <;> rfl⟩
    · exact absurd ht (completes _)
  | jne reg =>
    obtain ⟨r, hreg, rfl⟩ | ⟨-, ht⟩ := execJumpIf_cases h
    · exact ⟨r, hreg, by cases s.fl <;> rfl⟩
    · exact absurd ht (completes _)
  | ldi reg imm =>
    obtain ⟨r, -, rfl⟩ | ⟨-, ht⟩ := execLdi_cases h
    · rfl
    · exact absurd ht (completes _)
  | add regA regB => exact execAlu_pc (f := fun u v => .value (aluAdd u v)) (fun _ _ => rfl) h completes
  | mul regA regB => exact execAlu_pc (f := fun u v => .value (aluMul u v)) (fun _ _ => rfl) h completes
  | cmp regA regB => exact execAlu_pc (f := fun u v => .flag (compareFlag u v)) (fun _ _ => rfl) h completes

end Sys2Proof.Machine

/-! SUPPORT. The statements of 20_memory.md: accesses of one byte, and stores that are repeated. -/

namespace Sys2Proof.Machine

/-- Storing a byte again where it was just stored changes nothing more (20_memory.md R44): the canonical form is
determined by what the addresses read as. -/
theorem Memory.write_write_same {m : Memory} (hm : m.wf = true) {a : Nat} (ha : a < 256) (v : Byte) :
    (m.write a v).write a v = m.write a v := by
  have hw : (m.write a v).wf = true := Memory.wf_write hm ha v
  refine Memory.ext_read (Memory.wf_write hw ha v) hw fun b => ?_
  rw [Memory.read_write hw, Memory.read_write hm]
  split <;> rfl

/-- A store in bounds where the byte was just stored leaves the state as it is but for the latches. -/
theorem State.writeMem_write_same (s : State) {a : Int} (v : Byte) (hm : s.mem.wf = true) (h0 : 0 ≤ a) (h1 : a < 256) :
    ({ s with mem := s.mem.write a.toNat v } : State).writeMem a v =
      .ok { s.latch a v with mem := s.mem.write a.toNat v } := by
  have hsame : (s.mem.write a.toNat v).write a.toNat v = s.mem.write a.toNat v :=
    Memory.write_write_same hm (by omega) v
  rw [State.writeMem_of_range _ v h0 h1, hsame]
  rfl

/-- Settles O39: in bounds by the accesses' own equations, with a store read back, kept canonical and repeated by the
laws of `Memory.write`; out of bounds by the equation of the violation. -/
theorem memoryAccessIsOneByteInBounds : Obligations.MemoryAccessIsOneByteInBounds := by
  refine ⟨fun s addr h0 h1 => ?read, fun s addr h => ?readOut, fun s addr v hm h0 h1 => ?write,
    fun s addr v h => ?writeOut⟩
  case read => exact ⟨_, _, s.readMem_of_range h0 (by omega)⟩
  case readOut => exact s.readMem_of_not_range (by omega)
  case write =>
    exact ⟨s.mem.write addr.toNat v, _, _, s.writeMem_of_range v h0 (by omega), Memory.wf_write hm (by omega) v,
      Memory.read_write hm _ v, _, _, s.writeMem_write_same v hm h0 (by omega)⟩
  case writeOut => exact s.writeMem_of_not_range v (by omega)

end Sys2Proof.Machine

/-! SUPPORT. The statements of 30_encoding.md: the opcode map, the length of an instruction, and LDI's immediate. -/

namespace Sys2Proof.Machine

/-! ### The opcode map -/

/-- An opcode's byte and any two operand bytes decode to what its format makes of them (30_encoding.md R61, R66). -/
theorem decode_byte (o : Opcode) (opA opB : Byte) : decode o.byte opA opB = .ok (o.build opA opB) := by
  rw [decode, Opcode.ofByte_byte]

/-- The written-out list of mapped opcodes holds every opcode's byte. -/
@[simp] theorem isMappedOpcode_byte (o : Opcode) : isMappedOpcode o.byte = true := by
  cases o <;> rfl

/-- A byte outside the written-out list is no opcode's byte (30_encoding.md R68). -/
theorem ofByte_of_unmapped {op : Byte} (h : isMappedOpcode op = false) : Opcode.ofByte op = none := by
  cases ho : Opcode.ofByte op with
  | none => rfl
  | some o =>
    obtain rfl : op = o.byte := Opcode.ofByte_eq_some.mp ho
    rw [isMappedOpcode_byte] at h
    cases h

/-- A byte outside the map is rejected by name, whatever follows it (30_encoding.md R68). -/
theorem decode_of_unmapped {op : Byte} (h : isMappedOpcode op = false) (opA opB : Byte) :
    decode op opA opB = .error (.illegalOpcode op) := by
  rw [decode, ofByte_of_unmapped h]

/-- Settles O6: each of the fourteen bytes is its opcode's byte, and a byte outside the map is none of them. -/
theorem opcodeByteSelectsTheInstruction : Obligations.OpcodeByteSelectsTheInstruction := fun _ opA opB =>
  ⟨decode_byte .nop opA opB, decode_byte .hlt opA opB, decode_byte .ret opA opB, decode_byte .push opA opB,
    decode_byte .pop opA opB, decode_byte .prn opA opB, decode_byte .call opA opB, decode_byte .jmp opA opB,
    decode_byte .jeq opA opB, decode_byte .jne opA opB, decode_byte .ldi opA opB, decode_byte .add opA opB,
    decode_byte .mul opA opB, decode_byte .cmp opA opB, fun h => decode_of_unmapped h opA opB⟩

/-! ### The length and the fall-through advance -/

/-- A state that is still RUNNING is not one that took a fault. -/
theorem State.ne_faultedWith_of_running {t : State} (ht : t.run = .running) (s : State) (r : FaultRecord) :
    t ≠ s.faultedWith r := by
  rintro rfl
  cases ht

/-- An ALU instruction that does not fault keeps the run state. -/
theorem execAlu_run {o : Opcode} {regA regB : Byte} {s t : State} {f : Byte → Byte → AluResult}
    (ho : ∀ u v, alu o u v = .ok (f u v)) (h : execAlu o regA regB s = .next t)
    (completes : ∀ r, t ≠ s.faultedWith r) : t.run = s.run := by
  obtain ⟨a, b, -, -, rfl⟩ | ⟨-, ht⟩ | ⟨a, -, -, ht⟩ := execAlu_cases ho h
  · cases f (s.reg a) (s.reg b) <;> rfl
  · exact absurd ht (completes _)
  · exact absurd ht (completes _)

/-- A register jump that does not fault keeps the run state. -/
theorem execJumpIf_run {taken : Bool} {reg : Byte} {s t : State} (h : execJumpIf taken reg s = .next t)
    (completes : ∀ r, t ≠ s.faultedWith r) : t.run = s.run := by
  obtain ⟨r, -, rfl⟩ | ⟨-, ht⟩ := execJumpIf_cases h
  · cases taken <;> rfl
  · exact absurd ht (completes _)

/-- An instruction other than HLT that does not fault keeps the run state (10_state.md R23). -/
theorem exec_run {i : Instr} {s t : State} (h : exec i s = .next t) (completes : ∀ r, t ≠ s.faultedWith r)
    (hi : i ≠ .hlt) : t.run = s.run := by
  cases i with
  | nop =>
    obtain rfl : s.advancePc 1 = t := Host.Outcome.next.inj h
    rfl
  | hlt => exact absurd rfl hi
  | ret =>
    obtain ⟨-, rfl⟩ | ⟨-, ht⟩ := execRet_cases h
    · rfl
    · exact absurd ht (completes _)
  | push reg =>
    obtain ⟨r, v, -, -, -, rfl⟩ | ⟨-, ht⟩ | ⟨r, -, -, ht⟩ := execPush_cases h
    · rfl
    · exact absurd ht (completes _)
    · exact absurd ht (completes _)
  | pop reg =>
    obtain ⟨r, u, -, rfl, ⟨-, rfl⟩ | ⟨-, ht⟩⟩ | ⟨-, ht⟩ := execPop_cases h
    · rfl
    · exact absurd ht (completes _)
    · exact absurd ht (completes _)
  | prn reg =>
    obtain ⟨r, -, rfl⟩ | ⟨-, ht⟩ := execPrn_cases h
    · rfl
    · exact absurd ht (completes _)
  | call reg =>
    obtain ⟨r, -, -, rfl⟩ | ⟨-, ht⟩ | ⟨r, -, -, ht⟩ := execCall_cases h
    · rfl
    · exact absurd ht (completes _)
    · exact absurd ht (completes _)
  | jmp reg | jeq reg | jne reg => exact execJumpIf_run h completes
  | ldi reg imm =>
    obtain ⟨r, -, rfl⟩ | ⟨-, ht⟩ := execLdi_cases h
    · rfl
    · exact absurd ht (completes _)
  | add regA regB => exact execAlu_run (f := fun u v => .value (aluAdd u v)) (fun _ _ => rfl) h completes
  | mul regA regB => exact execAlu_run (f := fun u v => .value (aluMul u v)) (fun _ _ => rfl) h completes
  | cmp regA regB => exact execAlu_run (f := fun u v => .flag (compareFlag u v)) (fun _ _ => rfl) h completes

/-- An instruction that leaves the core RUNNING found it RUNNING. -/
theorem running_of_exec_running {i : Instr} {s t : State} (h : exec i s = .next t) (ht : t.run = .running) :
    s.run = .running := by
  by_cases hi : i = .hlt
  · subst hi
    obtain rfl : s.halt = t := Host.Outcome.next.inj h
    cases ht
  · rw [← exec_run h (State.ne_faultedWith_of_running ht s) hi, ht]

/-- Settles O8: the lengths constructor by constructor, the advances from the table of next pcs (O31), and CALL's return
address from the byte it leaves at the new SP. -/
theorem lengthIsTheFallThroughAdvance : Obligations.LengthIsTheFallThroughAdvance := by
  refine ⟨fun i => ?lengths, fun i s t h ht falls => ?advances, fun reg s t hm hp h ht => ?returnAddress⟩
  case lengths => cases i <;> rfl
  case advances =>
    have hpc := nextPcFollowsTheTable i s t h (.inl ht) (running_of_exec_running h ht)
    cases i with
    | nop | prn | push | pop | ldi | add | mul | cmp => exact hpc
    | hlt | ret | call | jmp => exact falls.elim
    | jeq reg =>
      obtain ⟨r, -, hpc⟩ := hpc
      exact hpc.trans (if_neg falls)
    | jne reg =>
      obtain ⟨r, -, hpc⟩ := hpc
      exact hpc.trans (if_pos falls)
  case returnAddress => exact execCall_top h (State.ne_faultedWith_of_running ht s) hm hp

/-! ### LDI and its immediate -/

/-- At pc <= 253 a step runs the instruction its three bytes decode to, with IR holding the opcode
(40_execution_loop.md R80, R82, R85). -/
theorem step_of_decode {s : State} {i : Instr} (hr : s.run = .running) (hp : s.pc ≤ 253)
    (hi : decode (s.mem.read s.pc) (s.mem.read (s.pc + 1)) (s.mem.read (s.pc + 2)) = .ok i) :
    ∃ mar mdr : Byte, step s = exec i { s with ir := s.mem.read s.pc, mar := mar, mdr := mdr } := by
  obtain ⟨mar, mdr, hf⟩ := fetch_of_le hp
  refine ⟨mar, mdr, ?_⟩
  simp only [step, cycle, hr, runCycle, hf, afterFetch, decodeExecute, hi]

/-- LDI into a register that exists. -/
theorem execLdi_reg (r : Fin 8) (v : Byte) (s : State) :
    execLdi (regByte r) v s = .next ((s.setReg r v).advancePc 3) := by
  simp [execLdi, imm8]

/-- Settles O23: the step on opcode 82 is the LDI of the two bytes after it. -/
theorem ldiLoadsTheByteAtPcPlus2 : Obligations.LdiLoadsTheByteAtPcPlus2 := by
  refine ⟨fun r v s => .of_next (execLdi_reg r v s) rfl, fun r s hr hp hop hreg => ?step⟩
  case step =>
    have hi : decode (s.mem.read s.pc) (s.mem.read (s.pc + 1)) (s.mem.read (s.pc + 2)) =
        .ok (.ldi (regByte r) (s.mem.read (s.pc + 2))) := by
      rw [hop, hreg]
      exact decode_byte .ldi _ _
    obtain ⟨mar, mdr, hs⟩ := step_of_decode hr hp hi
    rw [hop] at hs
    exact .of_next (hs.trans (execLdi_reg r _ _)) rfl

end Sys2Proof.Machine

/-! SUPPORT. The statements of 41_alu.md: the values of ADD and MUL, and the flag of CMP. -/

namespace Sys2Proof.Machine

/-- The sum modulo 256 is the 8-bit sum (41_alu.md R101). -/
theorem aluAdd_eq_add (u v : Byte) : aluAdd u v = u + v := by
  apply BitVec.eq_of_toNat_eq
  rw [aluAdd, BitVec.toNat_ofNat, Nat.mod_mod, BitVec.toNat_add]

/-- A product of two bytes fits 16 bits. -/
theorem byte_mul_toNat_lt (u v : Byte) : u.toNat * v.toNat < 2 ^ 16 :=
  (Nat.mul_lt_mul'' u.isLt v.isLt).trans_eq (Nat.pow_add 2 8 8).symm

/-- The product modulo 256 is the low byte of the 16-bit product, which loses no bit (41_alu.md R103). -/
theorem aluMul_eq_low_byte (u v : Byte) : aluMul u v = (u.setWidth 16 * v.setWidth 16).setWidth 8 := by
  have hprod : (u.setWidth 16 * v.setWidth 16).toNat = u.toNat * v.toNat := by
    rw [BitVec.toNat_mul, BitVec.toNat_setWidth_of_le (by decide), BitVec.toNat_setWidth_of_le (by decide),
      Nat.mod_eq_of_lt (byte_mul_toNat_lt u v)]
  apply BitVec.eq_of_toNat_eq
  rw [aluMul, BitVec.toNat_ofNat, Nat.mod_mod, BitVec.toNat_setWidth, hprod]

/-- CMP's flag is EQUAL, LESS_THAN or GREATER_THAN exactly by the unsigned order (41_alu.md R105). -/
theorem compareFlag_iff (u v : Byte) :
    (compareFlag u v = .equal ↔ u.toNat = v.toNat) ∧
      (compareFlag u v = .lessThan ↔ u.toNat < v.toNat) ∧
      (compareFlag u v = .greaterThan ↔ v.toNat < u.toNat) := by
  rcases Nat.lt_trichotomy u.toNat v.toNat with hlt | heq | hgt
  · have hf : compareFlag u v = .lessThan := by rw [compareFlag, if_neg hlt.ne, if_pos hlt]
    simp [hf, hlt, hlt.ne, hlt.le]
  · have hf : compareFlag u v = .equal := if_pos heq
    simp [hf, heq]
  · have hf : compareFlag u v = .greaterThan := by rw [compareFlag, if_neg hgt.ne', if_neg hgt.not_gt]
    simp [hf, hgt, hgt.ne', hgt.le]

/-- An ALU operation on registers that exist places its result and advances the pc by 3
(41_alu.md R100, R102, R104). -/
theorem execAlu_of_ok {o : Opcode} {a b : Fin 8} {s : State} {x : AluResult}
    (hx : alu o (s.reg a) (s.reg b) = .ok x) :
    execAlu o (regByte a) (regByte b) s = .next ((s.putAlu a x).advancePc 3) := by
  rw [execAlu_regs, hx, except_ok_bind, except_pure, settle_ok]

/-- Settles O17: ADD places the ALU's sum, which is the 8-bit sum. -/
theorem addIsAdditionModulo256 : Obligations.AddIsAdditionModulo256 := by
  intro a b s
  rw [← aluAdd_eq_add]
  exact .of_next (execAlu_of_ok (o := .add) rfl) rfl

/-- Settles O18: MUL places the ALU's product, which is the low byte of the 16-bit product. -/
theorem mulIsTheLowByteOfTheProduct : Obligations.MulIsTheLowByteOfTheProduct := by
  intro a b s
  rw [← aluMul_eq_low_byte]
  exact .of_next (execAlu_of_ok (o := .mul) rfl) rfl

/-- Settles O19: CMP places the flag of the unsigned comparison. -/
theorem cmpSetsFlByTheUnsignedOrder : Obligations.CmpSetsFlByTheUnsignedOrder := fun a b s =>
  ⟨compareFlag (s.reg a) (s.reg b), .of_next (execAlu_of_ok (o := .cmp) rfl) rfl,
    compareFlag_iff (s.reg a) (s.reg b)⟩

end Sys2Proof.Machine

/-! SUPPORT. The statement of 42_straight_line.md: NOP, with any two bytes after it. -/

namespace Sys2Proof.Machine

/-- NOP is the advance of the pc by 1 (42_straight_line.md R121). -/
theorem exec_nop (s : State) : exec .nop s = .next (s.advancePc 1) :=
  settle_ok s (s.advancePc 1)

/-- Settles O21: opcode byte 00 decodes to NOP whatever the two operand bytes are, and the step runs that NOP. -/
theorem nopOnlyAdvancesThePc : Obligations.NopOnlyAdvancesThePc := by
  refine ⟨fun s => .of_next (exec_nop s) rfl, fun s hr hp hop => ?step⟩
  case step =>
    have hi : decode (s.mem.read s.pc) (s.mem.read (s.pc + 1)) (s.mem.read (s.pc + 2)) = .ok .nop := by
      rw [hop]
      exact decode_byte .nop _ _
    obtain ⟨mar, mdr, hs⟩ := step_of_decode hr hp hi
    rw [hop] at hs
    exact .of_next (hs.trans (exec_nop _)) rfl

end Sys2Proof.Machine

/-! SUPPORT. The statement of 70_reset_and_hazards.md: the reset state, the register file and the memory read as wholes. -/

namespace Sys2Proof.Machine

/-- The register file of R200: the stack pointer starts at SP_RESET, every other register at 0 (10_state.md R14). -/
theorem State.reg_reset (r : Fin 8) : State.reset.reg r = if r = Config.spReg then Config.spReset else 0#8 := by
  revert r
  decide

/-- Reset lists no cell, so every address reads the reset contents (20_memory.md R41). -/
theorem State.read_mem_reset (a : Nat) : State.reset.mem.read a = 0#8 := Memory.read_nil a

/-- Settles O1: the registers and the memory by their own lemmas; every other piece is a field of the reset state. -/
theorem resetHoldsTheSpecsValues : Obligations.ResetHoldsTheSpecsValues :=
  ⟨State.reg_reset, rfl, rfl, rfl, fun a _ => State.read_mem_reset a, rfl, rfl, rfl, rfl⟩

end Sys2Proof.Machine

/-! SUPPORT. What an instruction can do, as two relations: `Completes s i t`, its own effect, and `Raises s i c`, its
fault. `Completes.exec`, `Raises.exec` and `exec_cases` tie them to `exec`; the statements below read off them. -/

namespace Sys2Proof.Machine

/-! ### The states a stack operation passes through (20_memory.md R48) -/

/-- The state a push of v leaves: SP one lower, v at the new SP, the latches loaded. -/
def State.pushed (s : State) (v : Byte) : State :=
  { (s.setSp (s.sp - 1#8)).latch (s.sp - 1#8).toNat v with mem := s.mem.write (s.sp - 1#8).toNat v }

@[simp] theorem State.pushed_pc (s : State) (v : Byte) : (s.pushed v).pc = s.pc := rfl
@[simp] theorem State.pushed_mem (s : State) (v : Byte) : (s.pushed v).mem = s.mem.write (s.sp - 1#8).toNat v := rfl
@[simp] theorem State.sp_pushed (s : State) (v : Byte) : (s.pushed v).sp = s.sp - 1#8 := State.sp_setSp s _

/-- The byte on top of the stack. -/
def State.top (s : State) : Byte := s.mem.read s.sp.toNat

/-- The state with the top of the stack read into register r, before SP moves. -/
def State.topInto (s : State) (r : Fin 8) : State := (s.latch s.sp.toNat s.top).setReg r s.top

@[simp] theorem State.reg_topInto (s : State) (r q : Fin 8) :
    (s.topInto r).reg q = if q = r then s.top else s.reg q := State.reg_setReg _ r q _
@[simp] theorem State.sp_topInto (s : State) (r : Fin 8) :
    (s.topInto r).sp = if r = 7 then s.top else s.sp := State.sp_setReg _ r _

/-- The state after a register jump, taken or not. -/
def State.jumpIf (s : State) (taken : Bool) (target : Byte) : State :=
  if taken then s.jumpTo target else s.advancePc 2

@[simp] theorem State.jumpIf_mem (s : State) (taken : Bool) (v : Byte) : (s.jumpIf taken v).mem = s.mem := by
  cases taken <;> rfl
@[simp] theorem State.jumpIf_out (s : State) (taken : Bool) (v : Byte) : (s.jumpIf taken v).out = s.out := by
  cases taken <;> rfl
@[simp] theorem State.jumpIf_run (s : State) (taken : Bool) (v : Byte) : (s.jumpIf taken v).run = s.run := by
  cases taken <;> rfl
@[simp] theorem State.reg_jumpIf (s : State) (taken : Bool) (v : Byte) (q : Fin 8) :
    (s.jumpIf taken v).reg q = s.reg q := by
  cases taken <;> rfl

/-! ### Register operands of an instruction -/

/-- The operand bytes of an instruction that name registers, in the order they are checked (60_exceptions.md R186). -/
def regOperands : Instr → List Byte
  | .nop | .hlt | .ret => []
  | .push reg | .pop reg | .prn reg | .call reg | .jmp reg | .jeq reg | .jne reg | .ldi reg _ => [reg]
  | .add regA regB | .mul regA regB | .cmp regA regB => [regA, regB]

/-- The first register operand above 7, if there is one. -/
def badOperand (i : Instr) : Option Byte := (regOperands i).find? fun reg => !regExists reg

theorem wellFormed_eq_all (i : Instr) : i.wellFormed = (regOperands i).all regExists := by
  cases i <;> simp [Instr.wellFormed, regOperands]

/-- An instruction is well formed when no register operand is above 7. -/
theorem badOperand_eq_none {i : Instr} : badOperand i = none ↔ i.wellFormed = true := by
  simp [badOperand, wellFormed_eq_all]

theorem regExists_iff {reg : Byte} : regExists reg = true ↔ ∃ r, reg = regByte r := by
  rcases regIdx_cases reg with ⟨r, rfl, -⟩ | ⟨hr, -⟩
  · simp only [regExists, regByte_toNat, regByte_inj, exists_eq', decide_eq_true_iff, iff_true]
    omega
  · simp only [regExists, decide_eq_true_iff]
    refine ⟨fun h => by omega, ?_⟩
    rintro ⟨r, rfl⟩
    rw [regByte_toNat] at hr
    omega

@[simp] theorem regExists_regByte (r : Fin 8) : regExists (regByte r) = true := regExists_iff.2 ⟨r, rfl⟩

theorem regExists_eq_false {reg : Byte} : regExists reg = false ↔ 7 < reg.toNat := by
  simp [regExists]

theorem gt_of_badOperand {i : Instr} {v : Byte} (h : badOperand i = some v) : 7 < v.toNat := by
  have hv : (!regExists v) = true := List.find?_some (p := fun reg => !regExists reg) h
  rwa [Bool.not_eq_true', regExists_eq_false] at hv

/-! ### The two relations -/

/-- `Completes s i t`: from s the instruction i has its own effect, which is t. -/
inductive Completes (s : State) : Instr → State → Prop
  | nop : Completes s .nop (s.advancePc 1)
  | hlt : Completes s .hlt s.halt
  | ret (hsp : s.sp ≠ 255#8) :
      Completes s .ret (((s.latch s.sp.toNat s.top).setSp (s.sp + 1#8)).jumpTo s.top)
  | push (r : Fin 8) (hsp : s.sp ≠ 0#8) :
      Completes s (.push (regByte r)) ((s.pushed ((s.setSp (s.sp - 1#8)).reg r)).advancePc 2)
  | pop (r : Fin 8) (hsp : (s.topInto r).sp ≠ 255#8) :
      Completes s (.pop (regByte r)) (((s.topInto r).setSp ((s.topInto r).sp + 1#8)).advancePc 2)
  | prn (r : Fin 8) : Completes s (.prn (regByte r)) ((s.emit (s.reg r)).advancePc 2)
  | call (r : Fin 8) (hsp : s.sp ≠ 0#8) :
      Completes s (.call (regByte r)) ((s.pushed s.returnAddr).jumpTo ((s.setSp (s.sp - 1#8)).reg r))
  | jmp (r : Fin 8) : Completes s (.jmp (regByte r)) (s.jumpIf true (s.reg r))
  | jeq (r : Fin 8) : Completes s (.jeq (regByte r)) (s.jumpIf s.fl.isEqual (s.reg r))
  | jne (r : Fin 8) : Completes s (.jne (regByte r)) (s.jumpIf (!s.fl.isEqual) (s.reg r))
  | ldi (r : Fin 8) (v : Byte) : Completes s (.ldi (regByte r) v) ((s.setReg r v).advancePc 3)
  | add (a b : Fin 8) :
      Completes s (.add (regByte a) (regByte b)) ((s.setReg a (aluAdd (s.reg a) (s.reg b))).advancePc 3)
  | mul (a b : Fin 8) :
      Completes s (.mul (regByte a) (regByte b)) ((s.setReg a (aluMul (s.reg a) (s.reg b))).advancePc 3)
  | cmp (a b : Fin 8) :
      Completes s (.cmp (regByte a) (regByte b)) ((s.setFl (compareFlag (s.reg a) (s.reg b))).advancePc 3)

/-- `Raises s i c`: from s the instruction i raises c: a register operand above 7 before anything else, otherwise SP
leaving 0..255 (60_exceptions.md R182, R183, R186). -/
inductive Raises (s : State) : Instr → FaultCause → Prop
  | register {i : Instr} {v : Byte} (hbad : badOperand i = some v) : Raises s i (.boundsViolation .reg v.toNat)
  | push (r : Fin 8) (hsp : s.sp = 0#8) : Raises s (.push (regByte r)) (.boundsViolation .mem (-1))
  | call (r : Fin 8) (hsp : s.sp = 0#8) : Raises s (.call (regByte r)) (.boundsViolation .mem (-1))
  | pop (r : Fin 8) (hsp : (s.topInto r).sp = 255#8) : Raises s (.pop (regByte r)) (.boundsViolation .mem 256)
  | ret (hsp : s.sp = 255#8) : Raises s .ret (.boundsViolation .mem 256)

/-- An instruction whose effect is defined answers it. -/
theorem Completes.exec {s t : State} {i : Instr} (h : Completes s i t) : exec i s = .next t := by
  cases h with
  | nop => exact exec_nop s
  | hlt => rfl
  | ret hsp =>
    simp [Machine.exec, execRet, State.incSp_of_ne_max (s := s.latch s.sp.toNat (s.mem.read s.sp.toNat)) hsp,
      State.top]
  | push r hsp =>
    simp only [Machine.exec, execPush, regIdx_regByte, except_ok_bind, State.decSp_of_ne_zero hsp, State.push_eq,
      except_pure, settle_ok]
    rfl
  | pop r hsp =>
    rw [State.topInto, State.top] at hsp ⊢
    simp only [Machine.exec, execPop, regIdx_regByte, except_ok_bind, State.readTop_eq,
      State.incSp_of_ne_max hsp, except_pure, settle_ok]
  | prn r => simp [Machine.exec, execPrn]
  | call r hsp =>
    simp only [Machine.exec, execCall, regIdx_regByte, except_ok_bind, State.decSp_of_ne_zero hsp, State.push_eq,
      except_pure, settle_ok]
    rfl
  | jmp r => exact execJumpIf_reg _ r s
  | jeq r => exact execJumpIf_reg _ r s
  | jne r => exact execJumpIf_reg _ r s
  | ldi r v => exact execLdi_reg r v s
  | add a b => exact execAlu_of_ok (o := .add) rfl
  | mul a b => exact execAlu_of_ok (o := .mul) rfl
  | cmp a b => exact execAlu_of_ok (o := .cmp) rfl

/-- With one register operand, the bad one is that one. -/
theorem find_bad_one {reg v : Byte} (h : [reg].find? (fun reg => !regExists reg) = some v) : reg = v := by
  rw [List.find?_singleton] at h
  split at h
  · exact Option.some.inj h
  · cases h

/-- With two register operands, the bad one is the first, or the second after a first that exists. -/
theorem find_bad_two {regA regB v : Byte} (h : [regA, regB].find? (fun reg => !regExists reg) = some v) :
    regA = v ∨ ((∃ a, regA = regByte a) ∧ regB = v) := by
  rw [List.find?_cons] at h
  split at h
  · exact .inl (Option.some.inj h)
  · next ha => exact .inr ⟨regExists_iff.1 (by simpa using ha), find_bad_one h⟩

theorem execAlu_of_bad (o : Opcode) {regA regB v : Byte}
    (h : [regA, regB].find? (fun reg => !regExists reg) = some v) (hv : 7 < v.toNat) (s : State) :
    execAlu o regA regB s = .next (s.faultedWith (.boundsViolation .reg v.toNat s.pc)) := by
  obtain rfl | ⟨⟨a, rfl⟩, rfl⟩ := find_bad_two h
  · exact execAlu_badA o hv regB s
  · exact execAlu_badB o a hv s

/-- A register operand above 7 faults, operand_a before operand_b, before any other check. -/
theorem exec_of_badOperand {i : Instr} {v : Byte} (h : badOperand i = some v) (s : State) :
    exec i s = .next (s.faultedWith (.boundsViolation .reg v.toNat s.pc)) := by
  have hv : 7 < v.toNat := gt_of_badOperand h
  cases i with
  | nop | hlt | ret => cases h
  | push reg | pop reg | prn reg | call reg | jmp reg | jeq reg | jne reg | ldi reg imm =>
    obtain rfl := find_bad_one h
    simp [Machine.exec, execPush, execPop, execPrn, execCall, execJmp, execJeq, execJne, execJumpIf, execLdi,
      regIdx_of_gt hv, FaultCause.record]
  | add regA regB | mul regA regB | cmp regA regB => exact execAlu_of_bad _ h hv s

/-- An instruction that raises a cause takes its fault in the state it began in (60_exceptions.md R181). -/
theorem Raises.exec {s : State} {i : Instr} {c : FaultCause} (h : Raises s i c) :
    exec i s = .next (s.faultedWith (c.record s.pc)) := by
  cases h with
  | register hbad => exact exec_of_badOperand hbad s
  | push r hsp => simp [Machine.exec, execPush, State.decSp_of_zero hsp]
  | call r hsp => simp [Machine.exec, execCall, State.decSp_of_zero hsp]
  | pop r hsp =>
    rw [State.topInto, State.top] at hsp
    simp only [Machine.exec, execPop, regIdx_regByte, except_ok_bind, State.readTop_eq, State.incSp_of_max hsp,
      except_error_bind, settle_error]
  | ret hsp =>
    simp [Machine.exec, execRet, State.incSp_of_max (s := s.latch s.sp.toNat (s.mem.read s.sp.toNat)) hsp]

/-- From any state a well-formed instruction has its effect, or SP leaves its range. -/
theorem completes_or_raises_of_wellFormed {i : Instr} (h : i.wellFormed = true) (s : State) :
    (∃ t, Completes s i t) ∨ ∃ c, Raises s i c := by
  rw [wellFormed_eq_all, List.all_eq_true] at h
  cases i with
  | nop => exact .inl ⟨_, .nop⟩
  | hlt => exact .inl ⟨_, .hlt⟩
  | ret =>
    by_cases hsp : s.sp = 255#8
    · exact .inr ⟨_, .ret hsp⟩
    · exact .inl ⟨_, .ret hsp⟩
  | push reg =>
    obtain ⟨r, rfl⟩ := regExists_iff.1 (h reg (by simp [regOperands]))
    by_cases hsp : s.sp = 0#8
    · exact .inr ⟨_, .push r hsp⟩
    · exact .inl ⟨_, .push r hsp⟩
  | pop reg =>
    obtain ⟨r, rfl⟩ := regExists_iff.1 (h reg (by simp [regOperands]))
    by_cases hsp : (s.topInto r).sp = 255#8
    · exact .inr ⟨_, .pop r hsp⟩
    · exact .inl ⟨_, .pop r hsp⟩
  | call reg =>
    obtain ⟨r, rfl⟩ := regExists_iff.1 (h reg (by simp [regOperands]))
    by_cases hsp : s.sp = 0#8
    · exact .inr ⟨_, .call r hsp⟩
    · exact .inl ⟨_, .call r hsp⟩
  | prn reg | jmp reg | jeq reg | jne reg | ldi reg imm =>
    obtain ⟨r, rfl⟩ := regExists_iff.1 (h reg (by simp [regOperands]))
    exact .inl ⟨_, by constructor⟩
  | add regA regB | mul regA regB | cmp regA regB =>
    obtain ⟨a, rfl⟩ := regExists_iff.1 (h regA (by simp [regOperands]))
    obtain ⟨b, rfl⟩ := regExists_iff.1 (h regB (by simp [regOperands]))
    exact .inl ⟨_, by constructor⟩

/-- EVERYTHING AN INSTRUCTION CAN ANSWER: its effect, or its fault taken in the state it began in. -/
theorem exec_cases {i : Instr} {s t : State} (h : exec i s = .next t) :
    Completes s i t ∨ ∃ c, Raises s i c ∧ t = s.faultedWith (c.record s.pc) := by
  have answers : (∃ u, Completes s i u) ∨ ∃ c, Raises s i c := by
    cases hbad : badOperand i with
    | some v => exact .inr ⟨_, .register hbad⟩
    | none => exact completes_or_raises_of_wellFormed (badOperand_eq_none.1 hbad) s
  obtain ⟨u, hu⟩ | ⟨c, hc⟩ := answers
  · exact .inl (Host.Outcome.next.inj (hu.exec.symm.trans h) ▸ hu)
  · exact .inr ⟨c, hc, Host.Outcome.next.inj (h.symm.trans hc.exec)⟩

/-! ### What every effect keeps, and what every fault is -/

/-- Only a well-formed instruction completes. -/
theorem Completes.wellFormed {s t : State} {i : Instr} (h : Completes s i t) : i.wellFormed = true := by
  cases h <;> simp [Instr.wellFormed]

/-- An instruction that completes never leaves the core FAULTED. -/
theorem Completes.run {s t : State} {i : Instr} (h : Completes s i t) : t.run = s.run ∨ t.run = .halted := by
  cases h with
  | hlt => exact .inr rfl
  | jmp | jeq | jne => exact .inl (State.jumpIf_run ..)
  | nop | ret | push | pop | prn | call | ldi | add | mul | cmp => exact .inl rfl

/-- An instruction that completes from RUNNING has raised nothing. -/
theorem Completes.run_ne_faulted {s t : State} {i : Instr} (h : Completes s i t) (hr : s.run = .running)
    (r : FaultRecord) : t.run ≠ .faulted r := by
  obtain hrun | hrun := h.run
  · rw [hrun, hr]
    exact RunState.noConfusion
  · rw [hrun]
    exact RunState.noConfusion

/-- Only PUSH and CALL store, one byte, just below the old SP. -/
theorem Completes.mem {s t : State} {i : Instr} (h : Completes s i t) :
    t.mem = s.mem ∨ ((i.opcode = .push ∨ i.opcode = .call) ∧ s.sp ≠ 0#8 ∧
      ∃ v, t.mem = s.mem.write (s.sp - 1#8).toNat v) := by
  cases h with
  | push r hsp => exact .inr ⟨.inl rfl, hsp, _, rfl⟩
  | call r hsp => exact .inr ⟨.inr rfl, hsp, _, rfl⟩
  | jmp | jeq | jne => exact .inl (State.jumpIf_mem ..)
  | nop | hlt | ret | pop | prn | ldi | add | mul | cmp => exact .inl rfl

/-- Every effect keeps the memory canonical. -/
theorem Completes.wf_mem {s t : State} {i : Instr} (h : Completes s i t) (hm : s.mem.wf = true) : t.mem.wf = true := by
  obtain ht | ⟨-, -, v, ht⟩ := h.mem
  · rwa [ht]
  · rw [ht]
    exact Memory.wf_write hm (BitVec.isLt _) v

theorem State.jumpIf_pc_le {s : State} (hp : s.pc ≤ 253) (taken : Bool) (target : Byte) :
    (s.jumpIf taken target).pc ≤ 256 := by
  cases taken with
  | true => exact Nat.le_of_lt target.isLt
  | false => exact Nat.le_trans (Nat.add_le_add_right hp 2) (by decide)

/-- From pc <= 253 every effect leaves pc <= 256: an advance is by at most 3, a jump is to a byte (10_state.md R15). -/
theorem Completes.pc_le {s t : State} {i : Instr} (h : Completes s i t) (hp : s.pc ≤ 253) : t.pc ≤ 256 := by
  cases h with
  | ret => exact Nat.le_of_lt s.top.isLt
  | call r => exact Nat.le_of_lt ((s.setSp (s.sp - 1#8)).reg r).isLt
  | jmp | jeq | jne => exact State.jumpIf_pc_le hp ..
  | hlt => exact Nat.le_trans hp (by decide)
  | nop | push | pop | prn | ldi | add | mul | cmp => exact Nat.le_trans (Nat.add_le_add_right hp _) (by decide)

/-- Only PRN writes the output, one byte, the register's (42_straight_line.md R123). -/
theorem Completes.out {s t : State} {i : Instr} (h : Completes s i t) :
    t.out = s.out ∨ ∃ r, i = .prn (regByte r) ∧ t.out = s.out ++ [s.reg r] := by
  cases h with
  | prn r => exact .inr ⟨r, rfl, rfl⟩
  | jmp | jeq | jne => exact .inl (State.jumpIf_out ..)
  | nop | hlt | ret | push | pop | call | ldi | add | mul | cmp => exact .inl rfl

/-- The causes of an instruction: the register space exactly when it is ill-formed, and otherwise address -1 or 256. -/
theorem Raises.cause {s : State} {i : Instr} {c : FaultCause} (h : Raises s i c) :
    (i.wellFormed = false ∧ ∃ v : Byte, 7 < v.toNat ∧ c = .boundsViolation .reg v.toNat) ∨
      (i.wellFormed = true ∧ (c = .boundsViolation .mem (-1) ∨ c = .boundsViolation .mem 256)) := by
  cases h with
  | @register i v hbad =>
    have hwf : ¬ i.wellFormed = true := by
      rw [← badOperand_eq_none, hbad]
      exact Option.some_ne_none v
    exact .inl ⟨Bool.eq_false_iff.2 hwf, v, gt_of_badOperand hbad, rfl⟩
  | push r | call r => exact .inr ⟨regExists_regByte r, .inl rfl⟩
  | pop r => exact .inr ⟨regExists_regByte r, .inr rfl⟩
  | ret => exact .inr ⟨rfl, .inr rfl⟩

/-- Whatever an instruction raises makes a reachable record (60_exceptions.md R182, R183). -/
theorem Raises.reachable {s : State} {i : Instr} {c : FaultCause} (h : Raises s i c) (pc : Nat) :
    (c.record pc).reachable = true := by
  obtain ⟨-, v, hv, rfl⟩ | ⟨-, rfl | rfl⟩ := h.cause
  · have := v.isLt
    simp only [FaultCause.record, FaultRecord.reachable, Bool.and_eq_true, decide_eq_true_iff]
    omega
  · rfl
  · rfl

/-! ### The step -/

/-- A byte outside the decoder's map is outside the written-out list of opcodes (30_encoding.md R68). -/
theorem isMappedOpcode_of_ofByte_none {op : Byte} (h : Opcode.ofByte op = none) : isMappedOpcode op = false := by
  revert op
  decide

/-- The state with IR and the latches as a step's fetch leaves them: IR holds the opcode if it was fetched
(40_execution_loop.md R82). -/
def State.fetched (s : State) (mar mdr : Byte) : State :=
  { s with ir := if s.pc ≤ 255 then s.mem.read s.pc else s.ir, mar := mar, mdr := mdr }

@[simp] theorem State.fetched_pc (s : State) (mar mdr : Byte) : (s.fetched mar mdr).pc = s.pc := rfl
@[simp] theorem State.fetched_mem (s : State) (mar mdr : Byte) : (s.fetched mar mdr).mem = s.mem := rfl
@[simp] theorem State.fetched_run (s : State) (mar mdr : Byte) : (s.fetched mar mdr).run = s.run := rfl
@[simp] theorem State.reg_fetched (s : State) (mar mdr : Byte) (q : Fin 8) : (s.fetched mar mdr).reg q = s.reg q := rfl
@[simp] theorem State.sp_fetched (s : State) (mar mdr : Byte) : (s.fetched mar mdr).sp = s.sp := rfl

theorem State.fetched_of_le {s : State} (h : s.pc ≤ 255) (mar mdr : Byte) :
    s.fetched mar mdr = { s with ir := s.mem.read s.pc, mar := mar, mdr := mdr } := by
  rw [State.fetched, if_pos h]

/-- `Decoded s i`: all three bytes at the pc are fetched, and they are i (40_execution_loop.md R80). -/
def Decoded (s : State) (i : Instr) : Prop :=
  s.pc ≤ 253 ∧ ∃ o : Opcode, s.mem.read s.pc = o.byte ∧ i = o.build (s.mem.read (s.pc + 1)) (s.mem.read (s.pc + 2))

/-- The opcode byte at the pc is the decoded instruction's. -/
theorem Decoded.opcode {s : State} {i : Instr} (h : Decoded s i) : s.mem.read s.pc = i.opcode.byte := by
  obtain ⟨-, o, ho, rfl⟩ := h
  rw [ho, Opcode.opcode_build]

/-- A decoded PRN is opcode 47 and names its register by the byte after it. -/
theorem Decoded.prn {s : State} {reg : Byte} (h : Decoded s (.prn reg)) :
    s.mem.read s.pc = 0x47#8 ∧ s.mem.read (s.pc + 1) = reg := by
  refine ⟨h.opcode, ?_⟩
  obtain ⟨-, o, -, hi⟩ := h
  obtain rfl : Opcode.prn = o := (congrArg Instr.opcode hi).trans (Opcode.opcode_build ..)
  exact (Instr.prn.inj hi).symm

/-- A step on a decoded instruction is its `exec` after the fetch. -/
theorem Decoded.step {s : State} {i : Instr} (h : Decoded s i) (hr : s.run = .running) :
    ∃ mar mdr : Byte, step s = exec i (s.fetched mar mdr) := by
  obtain ⟨hp, o, ho, rfl⟩ := h
  have hp' : s.pc ≤ 255 := Nat.le_trans hp (by decide)
  obtain ⟨mar, mdr, hs⟩ := step_of_decode hr hp (ho ▸ decode_byte o _ _)
  exact ⟨mar, mdr, by rw [hs, State.fetched_of_le hp']⟩

/-- EVERYTHING A STEP CAN ANSWER: the effect of the decoded instruction, or one fault, taken after the fetch, whose
record is a reachable one unless the pc was above 256. -/
theorem step_outcome {s t : State} (h : step s = .next t) : s.run = .running ∧ ∃ mar mdr : Byte,
    (∃ i, Decoded s i ∧ Completes (s.fetched mar mdr) i t) ∨
      ∃ c : FaultCause, t = (s.fetched mar mdr).faultedWith (c.record s.pc) ∧
        ((256 ≤ s.pc ∧ c = .boundsViolation .mem s.pc) ∨ (c.record s.pc).reachable = true) := by
  obtain ⟨hr, ⟨hp, rfl⟩ | ⟨mar, mdr, s1, rfl, hs⟩⟩ := step_cases h
  · refine ⟨hr, s.mar, s.mdr, .inr ⟨.boundsViolation .mem s.pc, ?_, .inl ⟨hp, rfl⟩⟩⟩
    rw [State.fetched, if_neg (Nat.not_le.2 hp)]
    rfl
  · refine ⟨hr, mar, mdr, ?_⟩
    obtain ⟨hp, rfl⟩ | ⟨hp, ho, rfl⟩ | ⟨hp, o, ho, hx⟩ := hs
    · refine .inr ⟨.boundsViolation .mem 256, ?_, .inr rfl⟩
      rw [State.fetched_of_le (by omega)]
      rfl
    · refine .inr ⟨.decodeFailure (s.mem.read s.pc), ?_, .inr ?_⟩
      · rw [State.fetched_of_le (by omega)]
        rfl
      · simp [FaultCause.record, FaultRecord.reachable, isMappedOpcode_of_ofByte_none ho]
    · rw [← State.fetched_of_le (by omega)] at hx
      obtain ht | ⟨c, hc, rfl⟩ := exec_cases hx
      · exact .inl ⟨_, ⟨hp, o, Opcode.ofByte_eq_some.1 ho, rfl⟩, ht⟩
      · exact .inr ⟨c, rfl, .inr (hc.reachable s.pc)⟩

/-- A step that ends FAULTED took one fault after its fetch. -/
theorem step_faulted {s t : State} {r : FaultRecord} (h : step s = .next t) (hf : t.run = .faulted r) :
    ∃ mar mdr : Byte, t = (s.fetched mar mdr).faultedWith r ∧ r.pc = s.pc ∧
      (256 ≤ s.pc ∧ r = .boundsViolation .mem s.pc s.pc ∨ r.reachable = true) := by
  obtain ⟨hr, mar, mdr, ⟨i, -, ht⟩ | ⟨c, rfl, hc⟩⟩ := step_outcome h
  · exact absurd hf (ht.run_ne_faulted hr r)
  · obtain rfl : c.record s.pc = r := RunState.faulted.inj hf
    exact ⟨mar, mdr, rfl, c.record_pc _, hc.imp_left fun ⟨hp, he⟩ => ⟨hp, by rw [he]; rfl⟩⟩

end Sys2Proof.Machine

/-! SUPPORT. The invariant, the statements of 60_exceptions.md, and what any step leaves unchanged. -/

namespace Sys2Proof.Machine

/-- A core that is not FAULTED has no fault record to be truthful about. -/
theorem State.inv_of_not_faulted {t : State} (hm : t.mem.wf = true) (hp : t.pc ≤ 256)
    (hrun : t.run = .running ∨ t.run = .halted) : t.Inv := by
  refine ⟨hm, hp, fun r hr => ?_⟩
  rw [hr] at hrun
  obtain hrun | hrun := hrun <;> cases hrun

/-- Settles O3: an effect keeps the memory canonical and the pc in range and faults nothing; a fault changes neither and
its record is reachable, also at pc 256, where the opcode fetch raises at 256. -/
theorem everyStepKeepsTheInvariant : Obligations.EveryStepKeepsTheInvariant := by
  intro s t ⟨hm, hp, _⟩ h
  obtain ⟨hr, mar, mdr, ⟨i, ⟨hp', -⟩, ht⟩ | ⟨c, rfl, hc⟩⟩ := step_outcome h
  · refine State.inv_of_not_faulted (ht.wf_mem hm) (ht.pc_le hp') (ht.run.imp_left fun hrun => ?_)
    rw [hrun, State.fetched_run, hr]
  · refine ⟨hm, hp, fun r hf => ?_⟩
    obtain rfl : c.record s.pc = r := RunState.faulted.inj hf
    refine ⟨?_, c.record_pc _⟩
    obtain ⟨hge, rfl⟩ | hreach := hc
    · obtain hpc : s.pc = 256 := Nat.le_antisymm hp hge
      rw [hpc]
      rfl
    · exact hreach

/-- Settles O2: reset's memory is empty, its pc is 0 and it is RUNNING. -/
theorem resetMeetsTheInvariant : Obligations.ResetMeetsTheInvariant :=
  State.inv_of_not_faulted Memory.wf_reset (Nat.zero_le _) (.inl rfl)

/-- Settles O35: the state after a fault is the fetched state with the record. -/
theorem faultsArePrecise : Obligations.FaultsArePrecise := by
  intro s t r h hf
  obtain ⟨mar, mdr, rfl, hpc, -⟩ := step_faulted h hf
  exact ⟨rfl, rfl, rfl, rfl, rfl, hpc, rfl⟩

/-- Settles O36: a record of an internal invariant violation is neither a fetch's nor a reachable one. -/
theorem noStepRaisesInternalInvariantViolation : Obligations.NoStepRaisesInternalInvariantViolation := by
  intro s t pc h hf
  obtain ⟨-, -, -, -, ⟨-, hrec⟩ | hreach⟩ := step_faulted h hf
  · cases hrec
  · cases hreach

/-- Settles O32: the operand named is the instruction's first bad operand. -/
theorem registerOperandAboveSevenFaults : Obligations.RegisterOperandAboveSevenFaults := by
  intro x y s
  have taken : ∀ (v : Byte) (is : List Instr), (∀ i ∈ is, badOperand i = some v) → ∀ i ∈ is,
      Yields (exec i s) { s with run := .faulted (.boundsViolation .reg v.toNat s.pc) } :=
    fun v is hbad i hi => .of_next (exec_of_badOperand (hbad i hi) s) rfl
  refine ⟨fun hx => taken x _ ?_, fun hx hy => taken y _ ?_⟩
  · rw [← regExists_eq_false] at hx
    simp [badOperand, regOperands, hx]
  · have hx' : regExists x = true := by simpa [regExists] using hx
    rw [← regExists_eq_false] at hy
    simp [badOperand, regOperands, hx', hy]

/-- Settles O33: an ill-formed instruction cannot complete, and what it raises is of the register space; a well-formed
one raises of the memory space alone. -/
theorem registerFaultExactlyWhenIllFormed : Obligations.RegisterFaultExactlyWhenIllFormed := by
  intro i s t hr h
  obtain ht | ⟨c, hc, rfl⟩ := exec_cases h
  · rw [ht.wellFormed]
    exact ⟨fun ⟨_, _, hf⟩ => absurd hf (ht.run_ne_faulted hr _), nofun⟩
  · obtain ⟨hwf, v, -, rfl⟩ | ⟨hwf, rfl | rfl⟩ := hc.cause <;> rw [hwf]
    · exact ⟨fun _ => rfl, fun _ => ⟨_, _, rfl⟩⟩
    · exact ⟨nofun, nofun⟩
    · exact ⟨nofun, nofun⟩

/-- Settles O34, each clause by the cause the instruction raises there. -/
theorem stackPointerLeavingTheRangeFaults : Obligations.StackPointerLeavingTheRangeFaults := by
  intro r s
  refine ⟨fun hsp i hi => ?below, fun hsp hr i hi => ?above, fun htop => ?popSp⟩
  case below =>
    simp only [List.mem_cons, List.not_mem_nil, or_false] at hi
    obtain rfl | rfl := hi
    · exact .of_next (Raises.push r hsp).exec rfl
    · exact .of_next (Raises.call r hsp).exec rfl
  case above =>
    simp only [List.mem_cons, List.not_mem_nil, or_false] at hi
    obtain rfl | rfl := hi
    · exact .of_next (Raises.pop r (by rw [State.sp_topInto, if_neg hr, hsp])).exec rfl
    · exact .of_next (Raises.ret hsp).exec rfl
  case popSp => exact .of_next (Raises.pop 7 (by rw [State.sp_topInto, if_pos rfl]; exact htop)).exec rfl

/-- Settles O14: every meaning ends by `settle`, which answers its result or its fault. -/
theorem everyInstructionAnswersANextState : Obligations.EveryInstructionAnswersANextState := by
  intro i s
  obtain ⟨x, hx⟩ := exec_settles i s
  cases x with
  | ok t => exact ⟨t, hx⟩
  | error c => exact ⟨_, hx⟩

/-- What follows a fetch is a next state. -/
theorem afterFetch_next (p : State × Except FaultCause (Byte × Byte × Byte)) : ∃ t, afterFetch p = .next t := by
  obtain ⟨s, c | ⟨op, opA, opB⟩⟩ := p
  · exact ⟨_, takeFault_eq c s⟩
  · rw [afterFetch, decodeExecute]
    cases decode op opA opB with
    | error e => exact ⟨_, takeFault_eq _ s⟩
    | ok i => exact everyInstructionAnswersANextState i s

/-- Settles O13: in RUNNING what follows the fetch is a next state; in the two other run states the step names them. -/
theorem stepIsEnabledExactlyInRunning : Obligations.StepIsEnabledExactlyInRunning := by
  intro s
  refine ⟨⟨fun ⟨t, h⟩ => (step_cases h).1, fun hr => ?_⟩, fun hr => ?_, fun r hr => ?_⟩
  · simp only [step, cycle, hr]
    exact afterFetch_next (fetch s)
  · simp only [step, cycle, hr]
  · simp only [step, cycle, hr]

/-- Where one register was written, a register that changed is that one. -/
theorem State.eq_of_reg_ne {s t : State} {r q : Fin 8} {v : Byte} (ht : t.regs = (s.setReg r v).regs)
    (hq : t.reg q ≠ s.reg q) : q = r := by
  by_contra hne
  refine hq ?_
  rw [State.reg, ht]
  exact (State.reg_setReg s r q v).trans (if_neg hne)

/-- Settles O37: a fault changes no register, and an effect those its constructor writes. -/
theorem onlyNamedRegistersChange : Obligations.OnlyNamedRegistersChange := by
  intro i s t q h hq
  obtain ht | ⟨c, -, rfl⟩ := exec_cases h
  · cases ht with
    | nop | hlt | prn | cmp => exact hq rfl
    | jmp | jeq | jne => exact hq (State.reg_jumpIf ..)
    | ldi r v | add r b | mul r b => exact congrArg regByte (State.eq_of_reg_ne rfl hq).symm
    | push | call | ret => exact State.eq_of_reg_ne rfl hq
    | pop r =>
      by_cases h7 : q = 7
      · exact .inr h7
      · rw [State.reg_advancePc, State.reg_setSp, if_neg h7] at hq
        exact .inl (congrArg regByte (State.eq_of_reg_ne rfl hq).symm)
  · exact absurd rfl hq

/-- Settles O38: an effect stores only as PUSH or CALL does, at SP - 1, and a fault stores nothing. -/
theorem onlyPushAndCallWriteMemory : Obligations.OnlyPushAndCallWriteMemory := by
  intro s t hm h
  obtain ⟨-, mar, mdr, ⟨i, hi, ht⟩ | ⟨c, rfl, -⟩⟩ := step_outcome h
  · refine ht.mem.imp_right fun ⟨ho, hsp, v, hv⟩ => ?_
    refine ⟨hi.1, ho.imp (fun ho => ?_) fun ho => ?_, hsp, fun a ha => ?_⟩
    · rw [hi.opcode, ho]; rfl
    · rw [hi.opcode, ho]; rfl
    · rw [hv, State.fetched_mem, State.sp_fetched, Memory.read_write hm, if_neg ha]
  · exact .inl rfl

/-- Settles O25: on a PRN of a register that exists the step is that PRN; on anything else, an effect that is no such
PRN or a fault, the output stays. -/
theorem outputGrowsOnlyByPrn : Obligations.OutputGrowsOnlyByPrn := by
  intro s t h
  obtain ⟨hr, mar, mdr, hout⟩ := step_outcome h
  by_cases hprn : s.pc ≤ 253 ∧ s.mem.read s.pc = 0x47#8 ∧ (s.mem.read (s.pc + 1)).toNat ≤ 7
  · obtain ⟨hp, hop, hreg⟩ := hprn
    obtain ⟨r, hr'⟩ : ∃ r, s.mem.read (s.pc + 1) = regByte r := regExists_iff.1 (decide_eq_true hreg)
    have hi : Decoded s (.prn (regByte r)) := ⟨hp, .prn, hop, by rw [hr']; rfl⟩
    obtain ⟨mar', mdr', hs⟩ := hi.step hr
    obtain rfl := Host.Outcome.next.inj (h.symm.trans (hs.trans (Completes.prn r).exec))
    exact .inr ⟨hp, hop, r, hr', rfl⟩
  · refine .inl ⟨?_, hprn⟩
    obtain ⟨i, hi, ht⟩ | ⟨c, rfl, -⟩ := hout
    · obtain hsame | ⟨r, rfl, -⟩ := ht.out
      · exact hsame
      · obtain ⟨hop, hreg⟩ := hi.prn
        refine absurd ⟨hi.1, hop, ?_⟩ hprn
        rw [hreg, regByte_toNat]
        exact Nat.le_of_lt_succ r.isLt
    · rfl

/-- Settles O16: the opcode fetch overwrites the latches, and a step that fetches no opcode only takes its fault. -/
theorem latchesAreNeverRead : Obligations.LatchesAreNeverRead := by
  intro s t mar mdr h
  by_cases hp : s.pc ≤ 255
  · exact .of_next ((step_overwrites hp s.ir mar mdr).trans h) rfl
  · obtain ⟨hr, -⟩ := step_cases h
    have hge : 256 ≤ s.pc := Nat.lt_of_not_le hp
    obtain rfl := Host.Outcome.next.inj ((step_of_ge hr hge).symm.trans h)
    exact .of_next (step_of_ge (s := { s with mar := mar, mdr := mdr }) hr hge) rfl

end Sys2Proof.Machine

/-! SUPPORT. The statements of 40_execution_loop.md, 42_straight_line.md and 43_control_flow.md: the result of each
instruction, and the stack's round trips. -/

namespace Sys2Proof.Machine

/-! ### The step -/

/-- Settles O10: the fetch ends with the three bytes, and the step runs what they decode to. -/
theorem stepRunsTheDecodedInstruction : Obligations.StepRunsTheDecodedInstruction := fun _ _ hr hp hi =>
  step_of_decode hr hp hi

/-- Settles O11: at 254 and 255 the fetch raises after the opcode, from 256 at the opcode. -/
theorem fetchPastTheTopFaults : Obligations.FetchPastTheTopFaults := by
  intro s hr
  refine ⟨fun hp => ?operand, fun hp => .of_next (step_of_ge hr hp) rfl⟩
  case operand =>
    obtain ⟨mar, mdr, hf⟩ := fetch_of_254_255 hp
    exact ⟨mar, mdr, by simp only [step, cycle, hr, runCycle, hf, afterFetch]; rfl⟩

/-- Settles O12: the fetched opcode is in no row of the map, so the step takes DecodeFailure after the fetch. -/
theorem unmappedOpcodeTakesDecodeFailure : Obligations.UnmappedOpcodeTakesDecodeFailure := by
  intro s hr hp hop
  obtain ⟨mar, mdr, hf⟩ := fetch_of_le hp
  refine ⟨mar, mdr, ?_⟩
  simp only [step, cycle, hr, runCycle, hf, afterFetch, decodeExecute, decode_of_unmapped hop]
  rfl

/-- Settles O22: opcode byte 01 decodes to HLT, and the step runs it. -/
theorem hltHaltsAtItsOwnAddress : Obligations.HltHaltsAtItsOwnAddress := by
  refine ⟨fun s => .of_next Completes.hlt.exec rfl, fun s hr hp hop => ?step⟩
  case step =>
    have hi : Decoded s .hlt := ⟨hp, .hlt, hop, rfl⟩
    obtain ⟨mar, mdr, hs⟩ := hi.step hr
    rw [State.fetched_of_le (by omega), hop] at hs
    exact .of_next (hs.trans Completes.hlt.exec) rfl

/-! ### Results -/

/-- Settles O24: PRN's effect. -/
theorem prnEmitsTheRegister : Obligations.PrnEmitsTheRegister := fun r _ => .of_next (Completes.prn r).exec rfl

/-- Settles O26: PUSH's effect, its memory read after the store. -/
theorem pushStoresBelowTheOldStackPointer : Obligations.PushStoresBelowTheOldStackPointer := by
  intro r s hm hsp
  refine ⟨s.mem.write (s.sp - 1#8).toNat _, .of_next (Completes.push r hsp).exec rfl, fun a => ?_⟩
  rw [Memory.read_write hm, State.reg_setSp]

/-- What POP R7 reads into SP is overwritten when SP then moves. -/
theorem State.setSp_topInto_sp (s : State) (v : Byte) :
    (s.topInto 7).setSp v = (s.latch s.sp.toNat s.top).setSp v := by
  simp [State.topInto, State.setSp, State.setReg]

/-- Settles O27: POP's effect, with SP after the register is written for r other than 7 and for R7. -/
theorem popLoadsTheTopOfTheStack : Obligations.PopLoadsTheTopOfTheStack := by
  refine ⟨fun r s hr hsp => ?other, fun s htop => ?sp⟩
  case other =>
    have hsp' : (s.topInto r).sp = s.sp := by rw [State.sp_topInto, if_neg hr]
    refine .of_next (Completes.pop r (by rwa [hsp'])).exec ?_
    rw [hsp']
    rfl
  case sp =>
    have hsp' : (s.topInto 7).sp = s.top := by rw [State.sp_topInto, if_pos rfl]
    refine .of_next (Completes.pop 7 (by rwa [hsp'])).exec ?_
    rw [hsp', State.setSp_topInto_sp]
    rfl

/-- Settles O28: CALL's effect, its memory read after the store of the return address. -/
theorem callPushesTheReturnAddressAndJumps : Obligations.CallPushesTheReturnAddressAndJumps := by
  intro r s hm hp hsp
  refine ⟨s.mem.write (s.sp - 1#8).toNat s.returnAddr,
    .of_next (Completes.call r hsp).exec (by rw [State.reg_setSp]; rfl), ?_, fun a ha => ?_⟩
  · rw [Memory.read_write hm, if_pos rfl, State.returnAddr_toNat hp]
  · rw [Memory.read_write hm, if_neg ha]

/-- Settles O29: RET's effect. -/
theorem retPopsThePc : Obligations.RetPopsThePc := fun _ hsp => .of_next (Completes.ret hsp).exec rfl

/-- The condition of JEQ holds exactly at EQUAL (43_control_flow.md R160). -/
theorem Flag.isEqual_iff (f : Flag) : f.isEqual = true ↔ f = .equal := by
  cases f <;> simp [Flag.isEqual]

theorem Flag.isEqual_eq_false {f : Flag} (h : f ≠ .equal) : f.isEqual = false :=
  Bool.eq_false_iff.2 (mt f.isEqual_iff.1 h)

/-- Settles O30: the jumps' effects, the condition decided by FL. -/
theorem registerJumpsFollowFl : Obligations.RegisterJumpsFollowFl := by
  intro r s
  refine ⟨.of_next (Completes.jmp r).exec rfl, fun hf => .of_next (Completes.jeq r).exec ?_,
    fun hf => .of_next (Completes.jeq r).exec ?_, fun hf => .of_next (Completes.jne r).exec ?_,
    fun hf => .of_next (Completes.jne r).exec ?_⟩
  · rw [(Flag.isEqual_iff _).2 hf]; rfl
  · rw [Flag.isEqual_eq_false hf]; rfl
  · rw [Flag.isEqual_eq_false hf]; rfl
  · rw [(Flag.isEqual_iff _).2 hf]; rfl

/-! ### Round trips of the stack -/

/-- SP one below a nonzero SP can rise again. -/
theorem byte_pred_ne_max {v : Byte} (h : v ≠ 0#8) : v - 1#8 ≠ 255#8 := by
  revert v
  decide

/-- A state that has the SP of a push and the pushed byte still there has that byte on top. -/
theorem State.top_of_pushed {s u : State} {v : Byte} (hm : s.mem.wf = true) (hsp : u.sp = (s.pushed v).sp)
    (hread : u.mem.read (s.pushed v).sp.toNat = (s.pushed v).mem.read (s.pushed v).sp.toNat) :
    u.sp = s.sp - 1#8 ∧ u.top = v := by
  rw [State.sp_pushed] at hsp hread
  refine ⟨hsp, ?_⟩
  rw [State.top, hsp, hread, State.pushed_mem, Memory.read_write hm, if_pos rfl]

/-- Settles O40: the pushed byte x[r] is on top, and POP r puts it back and raises SP again. -/
theorem popAfterPushRestores : Obligations.PopAfterPushRestores := by
  intro r s hm hr hsp
  refine ⟨_, (Completes.push r hsp).exec, ?_, fun u husp hread => ?_⟩
  · rw [State.sp_advancePc, State.sp_pushed]
  obtain ⟨husp, htop⟩ := State.top_of_pushed hm husp hread
  have hsp' : (u.topInto r).sp = s.sp - 1#8 := by rw [State.sp_topInto, if_neg hr, husp]
  refine ⟨_, (Completes.pop r (by rw [hsp']; exact byte_pred_ne_max hsp)).exec, ?_, ?_⟩
  · rw [State.reg_advancePc, State.reg_setSp, if_neg hr, State.reg_topInto, if_pos rfl, htop, State.reg_setSp,
      if_neg hr]
  · rw [State.sp_advancePc, State.sp_setSp, hsp', BitVec.sub_add_cancel]

/-- Settles O41: the pushed byte is the decremented SP itself, and POP R7 leaves that byte plus 1. -/
theorem popR7AfterPushR7RestoresSp : Obligations.PopR7AfterPushR7RestoresSp := by
  intro s hm hsp
  have hpushed : (s.setSp (s.sp - 1#8)).reg 7 = s.sp - 1#8 := State.sp_setSp s _
  refine ⟨_, (Completes.push 7 hsp).exec, ?_, ?_, fun u husp hread => ?_⟩
  · rw [State.sp_advancePc, State.sp_pushed]
  · rw [State.sp_advancePc]
    exact (State.top_of_pushed hm rfl rfl).2.trans (hpushed.trans (State.sp_pushed ..).symm)
  · obtain ⟨-, htop⟩ := State.top_of_pushed hm husp hread
    have hsp' : (u.topInto 7).sp = s.sp - 1#8 := by rw [State.sp_topInto, if_pos rfl, htop, hpushed]
    refine ⟨_, (Completes.pop 7 (by rw [hsp']; exact byte_pred_ne_max hsp)).exec, ?_⟩
    rw [State.sp_advancePc, State.sp_setSp, hsp', BitVec.sub_add_cancel]

/-- Settles O42: the return address is on top, and RET jumps to it and raises SP again. -/
theorem retAfterCallResumes : Obligations.RetAfterCallResumes := by
  intro r s hm hp hsp
  refine ⟨_, (Completes.call r hsp).exec, ?_, fun u husp hread => ?_⟩
  · rw [State.sp_jumpTo, State.sp_pushed]
  obtain ⟨husp, htop⟩ := State.top_of_pushed hm husp hread
  refine ⟨_, (Completes.ret (by rw [husp]; exact byte_pred_ne_max hsp)).exec, ?_, ?_, fun q hq => ?_⟩
  · rw [State.jumpTo_pc, htop, State.returnAddr_toNat hp]
  · rw [State.sp_jumpTo, State.sp_setSp, husp, BitVec.sub_add_cancel]
  · rw [State.reg_jumpTo, State.reg_setSp, if_neg hq, State.reg_latch]

/-- Settles O43: the PUSH stores x[r] at the address the pc advances to, and the next step's IR is the byte there. -/
theorem aPushedByteIsTheNextOpcode : Obligations.APushedByteIsTheNextOpcode := by
  intro r s hm hr hr7 hop hreg hp hsp hslot
  have hi : Decoded s (.push (regByte r)) := ⟨by omega, .push, hop, by rw [hreg]; rfl⟩
  obtain ⟨mar, mdr, hs⟩ := hi.step hr
  refine ⟨_, hs.trans (Completes.push (s := s.fetched mar mdr) r hsp).exec, rfl, fun u hu => ?_⟩
  rw [step_ir hu (by simp; omega)]
  simp [Memory.read_write hm, hslot, hr7]

end Sys2Proof.Machine

/-! SUPPORT. The statements of 30_encoding.md on encoding and decoding, and of 70_reset_and_hazards.md on runs, load and
the host's transactions. -/

namespace Sys2Proof.Machine

/-! ### Encoding -/

/-- An opcode and the operands that follow it build the instruction again (30_encoding.md R60, R61). -/
theorem build_operands (i : Instr) (rest : List Byte) :
    i.opcode.build ((i.operands ++ rest).getD 0 0#8) ((i.operands ++ rest).getD 1 0#8) = i := by
  cases i <;> rfl

/-- The first three bytes of an encoding, with anything after it, decode to the instruction. -/
theorem decode_encode (i : Instr) (rest : List Byte) :
    decode i.opcode.byte ((i.operands ++ rest).getD 0 0#8) ((i.operands ++ rest).getD 1 0#8) = .ok i :=
  (decode_byte i.opcode _ _).trans (congrArg _ (build_operands i rest))

/-- Settles O4: the three-byte decode gives the instruction, the list is as long as it, and what is left is the rest. -/
theorem decodingAnEncodingGivesTheInstruction : Obligations.DecodingAnEncodingGivesTheInstruction := by
  refine fun i rest => ⟨?_, decode_encode i rest⟩
  have hlen : ¬ (encode i ++ rest).length < i.length := by simp
  have hrest : (encode i ++ rest).drop i.length = rest := List.drop_left' (encode_length i)
  rw [encode, List.cons_append] at hlen hrest ⊢
  rw [decodeBytes, decode_encode]
  simp only [if_neg hlen, hrest]

/-- The operands of a decoded instruction are as many of the bytes after the opcode as its format has. -/
theorem operands_build (o : Opcode) {bytes : List Byte} (h : o.format.length ≤ bytes.length + 1) :
    (o.build (bytes.getD 0 0#8) (bytes.getD 1 0#8)).operands = bytes.take (o.format.length - 1) := by
  match bytes with
  | [] => cases o <;> simp_all [Opcode.format, Format.length, Opcode.build, Instr.operands]
  | [a] => cases o <;> simp_all [Opcode.format, Format.length, Opcode.build, Instr.operands]
  | a :: b :: _ => cases o <;> rfl

/-- Settles O5: the opcode byte is the decoded opcode's, and the operands are the bytes after it. -/
theorem decodedBytesAreTheEncoding : Obligations.DecodedBytesAreTheEncoding := by
  intro bytes i rest h
  cases bytes with
  | nil => cases h
  | cons op bytes =>
    rw [decodeBytes, decode] at h
    cases ho : Opcode.ofByte op with
    | none => rw [ho] at h; cases h
    | some o =>
      rw [ho] at h
      simp only [Instr.length, Opcode.opcode_build] at h
      split at h
      · cases h
      · next hlen =>
        simp only [Except.ok.injEq, Prod.mk.injEq] at h
        obtain ⟨rfl, rfl⟩ := h
        obtain rfl := Opcode.ofByte_eq_some.1 ho
        obtain ⟨n, hn⟩ : ∃ n, o.format.length = n + 1 := by cases o <;> exact ⟨_, rfl⟩
        rw [encode, Opcode.opcode_build, operands_build o (Nat.le_of_not_lt hlen), hn, List.drop_succ_cons,
          Nat.add_sub_cancel, List.cons_append, List.take_append_drop]

/-- Settles O7, opcode by opcode. -/
theorem opcodeBitsFollowTheMap : Obligations.OpcodeBitsFollowTheMap := by
  intro i
  cases i <;> simp [encode, Instr.operands, Instr.opcode, Opcode.byte]

/-- Settles O9: the six words read from the map. -/
theorem writtenOutWordsDecode : Obligations.WrittenOutWordsDecode :=
  ⟨decode_byte .ldi _ _, decode_byte .cmp _ _, decode_byte .push _ _, decode_byte .jne _ _, rfl, rfl⟩

/-! ### Runs -/

/-- A run of one more step after a step that goes on. -/
theorem Yields.run_succ {s t u : State} {k : Nat} (h : step s = .next u) (hk : Yields (Sys2Proof.core.run k u) t) :
    Yields (Sys2Proof.core.run (k + 1) s) t := by
  rwa [run_succ_of_next h]

/-- A step on memory that reads zero is a NOP, up to address 253. -/
theorem step_of_zero_mem {s : State} (hr : s.run = .running) (hm : ∀ a, s.mem.read a = 0#8) (hp : s.pc ≤ 253) :
    Yields (step s) { s with ir := 0#8, pc := s.pc + 1 } :=
  nopOnlyAdvancesThePc.2 s hr hp (hm s.pc)

/-- Memory that reads zero is a run of NOPs up to address 254. -/
theorem run_of_zero_mem (n : Nat) : ∀ {s : State}, s.run = .running → (∀ a, s.mem.read a = 0#8) →
    s.pc + (n + 1) ≤ 254 → Yields (Sys2Proof.core.run (n + 1) s) { s with pc := s.pc + (n + 1), ir := 0#8 } := by
  induction n with
  | zero =>
    intro s hr hm hp
    obtain ⟨mar, mdr, hs⟩ := step_of_zero_mem hr hm (by omega)
    exact .run_succ hs ⟨mar, mdr, rfl⟩
  | succ n ih =>
    intro s hr hm hp
    obtain ⟨mar, mdr, hs⟩ := step_of_zero_mem hr hm (by omega)
    rw [show s.pc + (n + 1 + 1) = s.pc + 1 + (n + 1) by omega] at hp ⊢
    exact .run_succ hs (ih (s := { s with ir := 0#8, pc := s.pc + 1, mar := mar, mdr := mdr }) hr hm hp)

/-- A run of NOPs that reaches address 254 faults in the fetch there. -/
theorem run_of_zero_mem_faults (n : Nat) : ∀ {s : State}, s.run = .running → (∀ a, s.mem.read a = 0#8) →
    s.pc + n = 254 → Yields (Sys2Proof.core.run (n + 1) s)
      { s with pc := 254, ir := 0#8, run := .faulted (.boundsViolation .mem 256 254) } := by
  induction n with
  | zero =>
    intro s hr hm hp
    obtain hp : s.pc = 254 := hp
    obtain ⟨mar, mdr, hs⟩ := (fetchPastTheTopFaults s hr).1 (.inl hp)
    refine .run_succ hs ⟨mar, mdr, ?_⟩
    rw [hm, hp]
    rfl
  | succ n ih =>
    intro s hr hm hp
    obtain ⟨mar, mdr, hs⟩ := step_of_zero_mem hr hm (by omega)
    rw [show s.pc + (n + 1) = s.pc + 1 + n by omega] at hp
    exact .run_succ hs (ih (s := { s with ir := 0#8, pc := s.pc + 1, mar := mar, mdr := mdr }) hr hm hp)

/-- Settles O44, each clause by induction on the steps: the first is a NOP, and the rest start where it ends. -/
theorem zeroMemoryRunsNopsAndFaultsAt254 : Obligations.ZeroMemoryRunsNopsAndFaultsAt254 := fun _ hr hm =>
  ⟨fun n hp => run_of_zero_mem n hr hm hp, fun n hp => run_of_zero_mem_faults n hr hm hp⟩

/-- Settles O47, by induction on the steps: two states that differ in the latches alone step to two such states. -/
theorem hostLearnsNothingOfTheLatches : Obligations.HostLearnsNothingOfTheLatches := by
  intro k
  induction k with
  | zero =>
    intro s t mar mdr h
    obtain rfl : s = t := Host.Outcome.next.inj h
    exact ⟨_, rfl, rfl, rfl⟩
  | succ k ih =>
    intro s t mar mdr h
    obtain ⟨u, hs, hk⟩ := run_succ_eq_next.1 h
    obtain ⟨mar', mdr', hs'⟩ := latchesAreNeverRead s u mar mdr hs
    obtain ⟨v, hv, hout, hfinal⟩ := ih u t mar' mdr' hk
    exact ⟨v, run_succ_eq_next.2 ⟨_, hs', hv⟩, hout, hfinal⟩

/-! ### Load and the host -/

/-- An image that fits is laid from LOAD_BASE. -/
theorem load_of_le {image : List Byte} (h : image.length ≤ 256) (s : State) :
    load image s = .next { s with mem := s.mem.writeList 0 image } := if_pos h

/-- Settles O45: the image read back by the law of `Memory.writeList` on the empty memory. -/
theorem loadPlacesTheImageAtZero : Obligations.LoadPlacesTheImageAtZero := by
  intro image s hs
  refine ⟨fun h => ?fits, fun h => if_neg (Nat.not_le.2 h)⟩
  case fits =>
    have hwf : s.mem.wf = true := by rw [hs]; rfl
    have hread := Memory.read_writeList image hwf 0 (by omega)
    refine ⟨_, load_of_le h s, Memory.wf_writeList image hwf 0, fun k hk => ?_, fun a ha => ?_⟩
    · rw [hread, if_pos (by omega), Nat.sub_zero, List.getD_eq_getElem _ _ hk]
    · rw [hread, if_neg (by omega), hs, Memory.read_nil]

/-- The final state of a core is its own state and how its run ended, once it has (70_reset_and_hazards.md R204). -/
theorem State.final_eq_some {s : State} {f : FinalState} : s.final = some f ↔
    f.regs = s.regs ∧ f.pc = s.pc ∧ f.ir = s.ir ∧ f.fl = s.fl ∧ f.mem = s.mem ∧ f.out = s.out ∧
      s.run.outcome = some f.outcome := by
  obtain ⟨regs, pc, ir, fl, mem, out, outcome⟩ := f
  simp only [State.final, Option.map_eq_some_iff, FinalState.mk.injEq]
  constructor
  · rintro ⟨o, ho, rfl, rfl, rfl, rfl, rfl, rfl, rfl⟩
    exact ⟨rfl, rfl, rfl, rfl, rfl, rfl, ho⟩
  · rintro ⟨rfl, rfl, rfl, rfl, rfl, rfl, ho⟩
    exact ⟨outcome, ho, rfl, rfl, rfl, rfl, rfl, rfl, rfl⟩

/-- How a run ended, by the run state (70_reset_and_hazards.md R205). -/
theorem RunState.outcome_eq_some {r : RunState} {o : RunOutcome} : r.outcome = some o ↔
    (r = .halted ∧ o = .halted) ∨ ∃ record, r = .faulted record ∧ o = .faulted record := by
  cases r <;> simp [RunState.outcome, eq_comm]

/-- The final state is read in a started session alone. -/
theorem Session.readFinal_eq_some {h : Session} {f : FinalState} :
    h.readFinal = some f ↔ h.phase = .started ∧ h.core.final = some f := by
  obtain ⟨phase, core⟩ := h
  cases phase <;> simp [Session.readFinal]

/-- Settles O46: each transaction by the phase, and the final state by its own laws. -/
theorem hostTransactionsComeInOrder : Obligations.HostTransactionsComeInOrder := by
  intro h image
  refine ⟨?load, ?start, ?step, fun f => ?final, fun himage => ?session⟩
  case final => rw [Session.readFinal_eq_some, State.final_eq_some, RunState.outcome_eq_some]
  case session =>
    refine ⟨⟨.loaded, { State.reset with mem := State.reset.mem.writeList 0 image }⟩, _, ?_, rfl, rfl, rfl, rfl⟩
    exact congrArg (Session.lift .loaded) (load_of_le himage State.reset)
  case load | start | step =>
    obtain ⟨phase, core⟩ := h
    cases phase <;> simp [Session.load, Session.start, Session.step]

end Sys2Proof.Machine
